-- ==== Sys2Proof/Word.lean ====
section
/-! DEFINITION. The widths of the machine's values (spec/00_scope.md R9: bit 0 is the least significant bit of every value, all values are unsigned bit strings). -/

namespace Sys2Proof

/-- A byte of program text. -/
abbrev Byte := BitVec 8

/-- A 32-bit instruction word (30_encoding.md R74). -/
abbrev Word := BitVec 32

/-- The contents of a 64-bit general register, or of the program counter (10_state.md R21, R23). -/
abbrev XWord := BitVec 64

/-- The 128-bit operand `X[t2] : X[t]` (30_encoding.md R76). -/
abbrev Operand := BitVec 128

/-- An intermediate physical address: at most 56 bits (20_memory.md R50). -/
abbrev Ipa := BitVec 56

end Sys2Proof
end

