-- ==== Sys2Proof/Config.lean ====
section
/-! DEFINITION. The parameters of an implementation (spec/00_scope.md R8). The host's interface gives `exec` an instruction and a state only, so a `Config` is carried in `State.cfg`, which nothing writes (DESIGN CHOICE, log 1). A program text and its base address, R8's `prog` and `progBase`, stand in `Pe.prog`. -/

namespace Sys2Proof

/-- What happens to an execution whose operand has a bit set that the spec calls res0 (30_encoding.md R83, 92 D5). -/
inductive Res0Policy where
  /-- the spec's own choice: the execution has no meaning -/
  | refuse
  /-- the bits are masked to zero before the fields are read -/
  | ignore
  deriving DecidableEq, Repr

/-- The Security state of EL1 on an implementation without EL3 (`ssNoEL3`, 92 D7). -/
inductive FixedState where
  | secure
  | nonSecure
  deriving DecidableEq, Repr

/-- The parameters of 00_scope.md R8. -/
structure Config where
  /-- FEAT_D128: the instruction is present -/
  featD128 : Bool
  /-- FEAT_XS: the nXS variant is defined -/
  featXS : Bool
  /-- FEAT_RME: Realm state exists -/
  featRME : Bool
  /-- FEAT_SEL2: EL2 can be enabled in Secure state -/
  featSEL2 : Bool
  /-- FEAT_TTL: the TTL operand field is live -/
  featTTL : Bool
  /-- FEAT_LPA2: TTL `0b0100` and `0b1001` are live -/
  featLPA2 : Bool
  /-- EL2 is implemented -/
  haveEL2 : Bool
  /-- EL3 is implemented -/
  haveEL3 : Bool
  /-- the field HCR_EL2.NV exists (D26) -/
  haveNV : Bool
  /-- the Security state of EL1 when EL3 is not implemented (D7) -/
  ssNoEL3 : FixedState
  /-- the width in bits of the value `VMID[]` returns (D21) -/
  vmidWidth : Nat
  /-- `OSDomain`, as the other members of each PE's domain: entry `p` lists those of PE `p` (D25, log 22) -/
  osPeers : List (List Nat)
  /-- what a set res0 operand bit does (D5) -/
  res0Policy : Res0Policy
  /-- `pairRule` as a table: entry `t` is `t2`, or none where the pair is not defined (D4) -/
  pairRule : List (Option Nat)
  /-- the bytes by which the program counter advances (D3) -/
  instrBytes : Nat
  deriving DecidableEq, Repr

/-- The spec's default `pairRule` (10_state.md R22, 30_encoding.md R75): register 31 pairs with itself, an even register with the next one, an odd one with none. PRESUMED (log 6). -/
def defaultPair (t : Nat) : Option Nat :=
  if t = 31 then some 31 else if t % 2 = 0 then some (t + 1) else none

/-- The setting 95_test_vectors.md section 3 states for its programs, with two PEs each in the other's Outer Shareable domain (program P1). DESIGN CHOICE (log 1). -/
def Config.launch : Config where
  featD128 := true
  featXS := true
  featRME := false
  featSEL2 := true
  featTTL := true
  featLPA2 := false
  haveEL2 := true
  haveEL3 := true
  haveNV := true
  ssNoEL3 := .nonSecure
  vmidWidth := 16
  osPeers := [[1], [0]]
  res0Policy := .refuse
  pairRule := (List.range 32).map defaultPair
  instrBytes := 4

end Sys2Proof
end

