-- ==== Sys2Proof/Machine/State.lean ====
section
/-! DEFINITION. The state of the machine, all of it plain data (spec/10_state.md). Sets are lists without repeats (log 9). -/

namespace Sys2Proof.Machine

/-- The Exception levels, the values of PSTATE.EL (R24). -/
inductive EL where
  | el0
  | el1
  | el2
  | el3
  deriving DecidableEq, Repr

/-- Security states (R30). -/
inductive SecurityState where
  | secure
  | nonSecure
  | realm
  deriving DecidableEq, Repr

/-- The regime an entry belongs to (R33). -/
inductive Regime where
  | secureEL10
  | nonSecureEL10
  | realmEL10
  | otherRegime
  deriving DecidableEq, Repr

/-- IPA spaces (20_memory.md R50). -/
inductive IpaSpace where
  | secureIPA
  | nonSecureIPA
  | realmIPA
  deriving DecidableEq, Repr

/-- The stage or stages an entry caches (R33, R34). -/
inductive Stage where
  | s2only
  | s1only
  | s1s2combined
  deriving DecidableEq, Repr

/-- The size of the translation table entry a cached entry was read from (R33). -/
inductive DescBits where
  | bits64
  | bits128
  deriving DecidableEq, Repr

/-- Translation granules (R33). -/
inductive Granule where
  | g4KB
  | g16KB
  | g64KB
  deriving DecidableEq, Repr

/-- Which memory accesses the completion of an operation waits for (20_memory.md R59, R60). -/
inductive Attr where
  /-- the base variant, `TLBI_AllAttr` -/
  | allAttr
  /-- the nXS variant, `TLBI_ExcludeXS` -/
  | excludeXS
  deriving DecidableEq, Repr

/-- A TLB entry record (R33). The attributes after `finalLevel` carry meaning only where `stage` is `s2only`. -/
structure TlbEntry where
  stage : Stage
  descBits : DescBits
  finalLevel : Bool
  level : Int
  granule : Granule
  regime : Regime
  ipaSpace : IpaSpace
  vmid : Nat
  ipaBase : Ipa
  ipaSize : Nat
  deriving DecidableEq, Repr

/-- What an operation matches entries by (40_tlbip_ipas2le1os.md R96). -/
structure TlbiRecord where
  ss : SecurityState
  ipa : Ipa
  ipaSpace : IpaSpace
  vmid : Nat
  ttl : BitVec 4
  deriving DecidableEq, Repr

/-- An issued invalidation that is not yet complete (R35). `id` is the model's own number of it (R104, log 8). `matched` holds each entry the operation matched, with the PE where it did: the match sets of its perform steps, which its completion condition asks for (20_memory.md R59, log 10). -/
structure PendingOp where
  id : Nat
  issuer : Nat
  record : TlbiRecord
  attr : Attr
  performedAt : List Nat
  matched : List (Nat × TlbEntry)
  deriving DecidableEq, Repr

/-- An in-flight memory access (R36). `oldOf` lists the operations whose old information the access uses, as the perform step marks it (40 R97, log 10). -/
structure Access where
  usedEntries : List TlbEntry
  xs : Bool
  complete : Bool
  oldOf : List Nat
  deriving DecidableEq, Repr

/-- The causes of Undefined (60_exceptions.md R121). -/
inductive UndefCause where
  /-- FEAT_D128 is not implemented -/
  | u1
  /-- FEAT_XS is not implemented (nXS variant) -/
  | u2
  /-- at EL0 -/
  | u3
  /-- at EL1, unless EL2 is enabled and HCR_EL2.NV is 1 -/
  | u4
  /-- `pairRule(t)` is not defined -/
  | u5
  deriving DecidableEq, Repr

/-- What a PE records when it raises an exception (60_exceptions.md R120, R122, R124). -/
inductive Exc where
  | undefined (cause : UndefCause)
  | systemAccessTrap (target : EL) (code : BitVec 8)
  deriving DecidableEq, Repr

/-- The immutable program text of a PE (00_scope.md R8 `prog` and `progBase`; 70 R152): `len` instructions from address `base` on, and the bytes of the text. A byte that is not listed has no value (log 4). -/
structure Prog where
  base : XWord
  len : Nat
  text : List Host.Cell
  deriving DecidableEq, Repr

/-- The state of one processing element (R20). -/
structure Pe where
  /-- X0..X30 (R21, R22) -/
  x : Vector XWord 31
  /-- the program counter (R23) -/
  pc : XWord
  /-- PSTATE.EL (R24) -/
  el : EL
  /-- SCR_EL3.NS (R26) -/
  scrNS : Bool
  /-- SCR_EL3.NSE (R26) -/
  scrNSE : Bool
  /-- HCR_EL2.NV (R27); read it through `hcrNV` -/
  hcrNVField : Bool
  /-- the value of VMID[] (R28); read it through `currentVmid` -/
  vmid : Nat
  /-- EL2 is enabled in the current Security state (R29); read it through `el2Enabled` -/
  el2EnabledField : Bool
  /-- the PE's TLB (R32) -/
  tlb : List TlbEntry
  /-- the PE's in-flight memory accesses (R36) -/
  accesses : List Access
  /-- the exception the PE has ended in, if any (60 R126, log 3) -/
  exception : Option Exc
  /-- the PE's program (70 R152) -/
  prog : Prog
  deriving DecidableEq, Repr

/-- One move of an agent (log 2). -/
inductive Event where
  /-- PE `p` executes its next instruction -/
  | run (p : Nat)
  /-- operation `id` is performed at PE `q` (40 R97) -/
  | perform (id q : Nat)
  /-- operation `id` becomes complete (20 R59, R60) -/
  | complete (id : Nat)
  /-- the TLB of `q` gains an entry (20 R67) -/
  | gain (q : Nat) (e : TlbEntry)
  /-- the TLB of `q` loses an entry (20 R67, 40 R99) -/
  | lose (q : Nat) (e : TlbEntry)
  /-- a memory access of `q` begins (10 R36) -/
  | accessBegin (q : Nat) (used : List TlbEntry) (xs : Bool)
  /-- in-flight access number `i` of `q` is translated through one more entry -/
  | accessUses (q i : Nat) (e : TlbEntry)
  /-- in-flight access number `i` of `q` completes -/
  | accessComplete (q i : Nat)
  /-- access number `i` of `q`, complete, is no longer in flight -/
  | accessRetire (q i : Nat)
  deriving DecidableEq, Repr

/-- Why the machine stops with a fault. -/
inductive Fault where
  /-- Raised by `runCurrent` when a PE that has recorded an exception is asked to take a further step (60 R126). Safe: the hardware would go on into a handler. -/
  | exception (e : Exc)
  /-- Raised by `fetch` when a PE that has executed its whole program is asked to take a further step (70 R152). Safe: the model says nothing of what follows. -/
  | exited
  deriving DecidableEq, Repr

/-- Why the model gives a step no meaning. -/
inductive Refusal where
  /-- Answered by no arm now; it is the mark of an instruction without a meaning. Safe. -/
  | notModelled (mnemonic : String)
  /-- Answered by `fetch`: the word at the program counter is not in this spec (30 R87). Safe. -/
  | notInThisSpec
  /-- Answered by `fetch`: the program counter is not a multiple of 4 (20 R54, D16). Safe. -/
  | pcMisaligned
  /-- Answered by `fetch`: `pc + instrBytes`, the address of the next instruction, would wrap (10 R23, D3; log 35). Safe. -/
  | pcWraps
  /-- Answered by `fetch`: the program counter points at no instruction of the PE's program (70 R152). Safe. -/
  | pcOutsideProgram
  /-- Answered by `fetch`: the program's text has no byte at an address the program counter points at (log 4). Safe. -/
  | noText
  /-- Answered by `invalidate`: FEAT_RME with SCR_EL3.{NSE, NS} = {1, 0} (10 R30, D6). Safe. -/
  | securityStateReserved
  /-- Answered by `tlbipIpas2`: Secure, with neither FEAT_RME nor FEAT_SEL2 (40 R92). Safe. -/
  | noIpaSpace
  /-- Answered by `tlbipIpas2`: a res0 operand bit is 1 and res0Policy is refuse (30 R83, D5). Safe. -/
  | res0Set
  /-- Answered by `runCurrent`, `withCur` and the environment's moves: there is no PE of that number. Safe. -/
  | noSuchPe
  /-- Answered by `handleEvent`: the agenda names a move that is not possible in this state (log 27). Safe. -/
  | eventNotEnabled
  deriving DecidableEq, Repr

/-- The machine (R20). -/
structure State where
  /-- the parameters (00_scope.md R8, log 1) -/
  cfg : Config
  /-- the PEs, by number -/
  pes : List Pe
  /-- pendingTLBI (R35) -/
  pendingTLBI : List PendingOp
  /-- the number the next operation gets (log 8) -/
  nextOp : Nat
  /-- the PE that executes (log 2) -/
  cur : Nat
  /-- the moves still to come (log 2) -/
  agenda : List Event
  deriving DecidableEq, Repr

/-- A PE right after reset. The spec gives no reset value but names every item "unspecified" (R39, R40): each value here is named in log 7, `prog` in log 4. -/
def Pe.reset : Pe where
  x := Vector.replicate 31 0
  pc := 0
  el := .el3
  scrNS := false
  scrNSE := false
  hcrNVField := false
  vmid := 0
  el2EnabledField := false
  tlb := []
  accesses := []
  exception := none
  prog := ⟨0, 0, []⟩

/-- The machine right after reset: nothing pending (R39), two PEs, the parameters of `Config.launch` (log 1, log 7). That PE 0 is the executing PE (`cur := 0`) and no move is listed (`agenda := []`), so that PE 0 moves first, is a DESIGN CHOICE (log 2): how PEs start, and in which order, is not in the source (60_exceptions.md R131, 91 N31). -/
def State.reset : State where
  cfg := Config.launch
  pes := [Pe.reset, Pe.reset]
  pendingTLBI := []
  nextOp := 0
  cur := 0
  agenda := []

end Sys2Proof.Machine
end

