-- ==== Sys2Proof/Machine/Ops.lean ====
section
/-! DEFINITION. The named operations over registers, program text and the pending operations, and the one operation that takes an exception. -/

namespace Sys2Proof.Machine

/-- Go on from a next state, and stop where the first part stops. -/
def andThen {α β : Type} (o : Host.Outcome α Fault Refusal) (k : α → Host.Outcome β Fault Refusal) : Host.Outcome β Fault Refusal :=
  match o with
  | .next a => k a
  | .fault f => .fault f
  | .refused r => .refused r

/-- `x[i]`: general register `i`, and zero for index 31 (10_state.md R22). PRESUMED (log 6). -/
def readX (pe : Pe) (i : Nat) : XWord := if h : i < 31 then pe.x[i] else 0

/-- The byte of a program text at an address. An address that is not listed has no value (log 4). -/
def Memory.read (m : List Host.Cell) (a : Nat) : Option Byte :=
  match m with
  | [] => none
  | c :: rest => if c.1 = a then some c.2 else Memory.read rest a

/-- Put a byte at an address, keeping the addresses strictly rising. -/
def Memory.write (m : List Host.Cell) (a : Nat) (b : Byte) : List Host.Cell :=
  match m with
  | [] => [(a, b)]
  | c :: rest =>
    if a < c.1 then (a, b) :: c :: rest
    else if c.1 = a then (a, b) :: rest
    else c :: Memory.write rest a b

/-- Put bytes at consecutive addresses. -/
def Memory.writeBytes (m : List Host.Cell) (a : Nat) : List Byte → List Host.Cell
  | [] => m
  | b :: bs => Memory.writeBytes (Memory.write m a b) (a + 1) bs

/-- The canonical form of a program text: addresses strictly rising, each a 64-bit address. An unlisted address has no value, so no entry can equal it. -/
abbrev Memory.wf (m : List Host.Cell) : Prop :=
  m.Pairwise (fun c d => c.1 < d.1) ∧ ∀ c ∈ m, c.1 < 2 ^ 64

/-- Change PE `p`. -/
def State.modifyPe (s : State) (p : Nat) (f : Pe → Pe) : State :=
  { s with pes := s.pes.modify p f }

/-- Work on the PE that executes. -/
def withCur (s : State) (k : Pe → Host.Outcome State Fault Refusal) : Host.Outcome State Fault Refusal :=
  match s.pes[s.cur]? with
  | none => .refused .noSuchPe
  | some pe => k pe

/-- Taking an exception at the executing PE (60_exceptions.md R122, R124, R126, R133): the PE records it, the program counter stays at the instruction, no other state changes, and the PE takes no further step (`runCurrent`). There is no return from it (R127). DEDUCED (log 3). -/
def takeException (e : Exc) (s : State) : State :=
  s.modifyPe s.cur (fun pe => { pe with exception := some e })

/-- `pc <- pc + instrBytes` at the executing PE (10_state.md R23). -/
def advancePc (s : State) : State :=
  s.modifyPe s.cur (fun pe => { pe with pc := pe.pc + BitVec.ofNat 64 s.cfg.instrBytes })

/-- Add an operation of the executing PE, performed nowhere yet, to `pendingTLBI` (40_tlbip_ipas2le1os.md R96). -/
def addPending (record : TlbiRecord) (attr : Attr) (s : State) : State :=
  { s with
    pendingTLBI := s.pendingTLBI ++ [⟨s.nextOp, s.cur, record, attr, [], []⟩]
    nextOp := s.nextOp + 1 }

end Sys2Proof.Machine
end

