-- ==== Sys2Proof/Machine/Flags.lean ====
section
/-! DEFINITION. The control fields an execution tests. The instructions read and write no condition flag (spec/10_state.md R25), so there is no flag computation. -/

namespace Sys2Proof.Machine

/-- `EL2Enabled()`: EL2 is implemented and enabled in the current Security state (R29, log 15). -/
def el2Enabled (cfg : Config) (pe : Pe) : Bool := cfg.haveEL2 && pe.el2EnabledField

/-- `HCR_EL2.NV`, which reads as 0 where the field does not exist (R27, 92 D26, log 15). -/
def hcrNV (cfg : Config) (pe : Pe) : Bool := cfg.haveNV && pe.hcrNVField

/-- `VMID[]`: the current VMID, a string of `vmidWidth` bits (R28, log 16). -/
def currentVmid (cfg : Config) (pe : Pe) : Nat := pe.vmid % 2 ^ cfg.vmidWidth

/-- The Security state a `FixedState` stands for (92 D7). -/
def fixedSecurityState (f : FixedState) : SecurityState :=
  match f with
  | .secure => .secure
  | .nonSecure => .nonSecure

/-- `SecurityStateAtEL(EL1)`; none where the spec refuses (R30). -/
def securityStateAtEL1 (cfg : Config) (pe : Pe) : Option SecurityState :=
  if !cfg.haveEL3 then some (fixedSecurityState cfg.ssNoEL3)
  else if cfg.featRME then
    match pe.scrNSE, pe.scrNS with
    | false, false => some .secure
    | false, true => some .nonSecure
    | true, true => some .realm
    | true, false => none
  else if pe.scrNS then some .nonSecure else some .secure

end Sys2Proof.Machine
end

