-- ==== Sys2Proof/Machine/Operands.lean ====
section
/-! DEFINITION. The register pair, the 128-bit operand, its fields and what they mean (spec/30_encoding.md section 2; 40_tlbip_ipas2le1os.md R90 to R93). -/

namespace Sys2Proof.Machine

/-- `pairRule(t)` (00_scope.md R8, 10_state.md R22). -/
def pairOf (cfg : Config) (t : Nat) : Option Nat := (cfg.pairRule[t]?).join

/-- `op128 = x[t2] : x[t]` (30 R76). -/
def operandOf (pe : Pe) (t t2 : Nat) : Operand := readX pe t2 ++ readX pe t

/-- The IPA field, op128[107:64] (R79, R90). -/
def ipaField (op : Operand) : BitVec 44 := op.extractLsb' 64 44

/-- The NS bit, op128[63] (R80, R90). -/
def nsBit (op : Operand) : Bool := op.getLsbD 63

/-- The TTL field as written, op128[47:44] (R81, R90). -/
def ttlField (op : Operand) : BitVec 4 := op.extractLsb' 44 4

/-- op128[127:108], res0 (R77, R90). -/
def res0Hi (op : Operand) : BitVec 20 := op.extractLsb' 108 20

/-- op128[62:48], res0 (R77, R90). -/
def res0Mid (op : Operand) : BitVec 15 := op.extractLsb' 48 15

/-- op128[43:0], res0 (R78, R90). -/
def res0Lo (op : Operand) : BitVec 44 := op.extractLsb' 0 44

/-- The specified IPA: the IPA field above twelve zero bits (R79, R90). -/
def specifiedIpa (op : Operand) : Ipa := ipaField op ++ 0#12

/-- TTL[3:2] (R81). -/
def ttlGranule (ttl : BitVec 4) : BitVec 2 := ttl.extractLsb' 2 2

/-- TTL[1:0] (R81). -/
def ttlLevel (ttl : BitVec 4) : BitVec 2 := ttl.extractLsb' 0 2

/-- `IPASpace(ss, nsBit)`: the targeted IPA space and whether the NS bit is res0; none where the spec refuses (40 R92). -/
def ipaSpaceOf (cfg : Config) (ss : SecurityState) (ns : Bool) : Option (IpaSpace × Bool) :=
  match ss with
  | .realm => some (.realmIPA, true)
  | .nonSecure => some (.nonSecureIPA, true)
  | .secure =>
    if cfg.featRME || cfg.featSEL2 then
      some (if ns then .nonSecureIPA else .secureIPA, false)
    else none

/-- What a TTL value says of the entry: any level, or one granule and level (40 R93). -/
inductive TtlMeaning where
  | any
  | level (granule : Granule) (level : Int)
  deriving DecidableEq, Repr

/-- `TTLDecode` (40 R93; the reserved encodings, 30 R84). -/
def ttlDecode (cfg : Config) (ttl : BitVec 4) : TtlMeaning :=
  if !cfg.featTTL then .any
  else
    match (ttlGranule ttl).toNat, (ttlLevel ttl).toNat with
    | 1, 0 => if cfg.featLPA2 then .level .g4KB 0 else .any
    | 1, 1 => .level .g4KB 1
    | 1, 2 => .level .g4KB 2
    | 1, 3 => .level .g4KB 3
    | 2, 1 => if cfg.featLPA2 then .level .g16KB 1 else .any
    | 2, 2 => .level .g16KB 2
    | 2, 3 => .level .g16KB 3
    | 3, 1 => .level .g64KB 1
    | 3, 2 => .level .g64KB 2
    | 3, 3 => .level .g64KB 3
    | _, _ => .any

/-- Some res0 bit of the operand is 1 (30 R83; `res0Set` of 40 R96). -/
def res0BitSet (cfg : Config) (nsRes0 : Bool) (op : Operand) : Bool :=
  res0Hi op != 0 || res0Mid op != 0 || res0Lo op != 0
    || (nsRes0 && nsBit op)
    || (!cfg.featTTL && ttlField op != 0)
    || (cfg.featTTL && ttlGranule (ttlField op) == 0 && ttlLevel (ttlField op) != 0)

/-- The TTL field with its res0 bits masked to zero (30 R83): all of it without FEAT_TTL, TTL[1:0] where TTL[3:2] is `0b00`. It is the field as written where no res0 bit is set. -/
def liveTtl (cfg : Config) (ttl : BitVec 4) : BitVec 4 :=
  if !cfg.featTTL then 0
  else if ttlGranule ttl == 0 then 0
  else ttl

end Sys2Proof.Machine
end

