-- ==== Sys2Proof/Machine/Tlb.lean ====
section
/-! DEFINITION. Which entries an operation matches (spec/40_tlbip_ipas2le1os.md R91, R94, R95), its perform and complete steps (R97; 20_memory.md R59, R60, R62), and the environment's moves on TLBs and memory accesses (20 R67; 10_state.md R36). -/

namespace Sys2Proof.Machine

/-- `RegimeOf(ss)` (R91). -/
def regimeOf (ss : SecurityState) : Regime :=
  match ss with
  | .secure => .secureEL10
  | .nonSecure => .nonSecureEL10
  | .realm => .realmEL10

/-- `DescInScope`: the test on 64-bit entries reads the field as written (R94, 92 D9). -/
def descInScope (ttl : BitVec 4) (e : TlbEntry) : Bool :=
  e.descBits == .bits128 || (e.descBits == .bits64 && ttlGranule ttl == 0)

/-- `TTLConsistent` (R95; 30 R82). -/
def ttlConsistent (m : TtlMeaning) (e : TlbEntry) : Bool :=
  match m with
  | .any => true
  | .level g l => e.granule == g && e.level == l

/-- The entry translates address `a`: an unsigned range test that does not wrap (R95). -/
def covers (e : TlbEntry) (a : Ipa) : Bool :=
  decide (e.ipaBase.toNat ≤ a.toNat) && decide (a.toNat < e.ipaBase.toNat + e.ipaSize)

/-- `Match(rec, e)` (R95). -/
def entryMatches (cfg : Config) (r : TlbiRecord) (e : TlbEntry) : Bool :=
  e.stage == .s2only
    && e.finalLevel
    && descInScope r.ttl e
    && e.regime == regimeOf r.ss
    && e.ipaSpace == r.ipaSpace
    && covers e r.ipa
    && e.vmid == r.vmid
    && ttlConsistent (ttlDecode cfg r.ttl) e

/-- `OSDomain(p)`: PE `p` itself and the PEs the parameter lists for it (20 R62; 92 D25, log 22). -/
def osDomain (s : State) (p : Nat) : List Nat :=
  (List.range s.pes.length).filter
    (fun q => q == p || ((s.cfg.osPeers[p]?).getD []).contains q)

/-- The set `M` of a perform step: the entries of a TLB that the record matches (R97). -/
def matchSet (cfg : Config) (r : TlbiRecord) (tlb : List TlbEntry) : List TlbEntry :=
  tlb.filter (entryMatches cfg r)

/-- The access uses an entry the operation matches in this TLB: it gets the mark "uses old information of o" (R97). -/
def markAccess (o : PendingOp) (matched : List TlbEntry) (a : Access) : Access :=
  if a.usedEntries.any matched.contains then { a with oldOf := a.oldOf ++ [o.id] } else a

/-- What the perform step of `o` does to a PE: its TLB loses exactly the match set, and the accesses that use an entry of it are marked (R97). -/
def performAtPe (cfg : Config) (o : PendingOp) (pe : Pe) : Pe :=
  { pe with
    tlb := pe.tlb.filter (fun e => !entryMatches cfg o.record e)
    accesses := pe.accesses.map (markAccess o (matchSet cfg o.record pe.tlb)) }

/-- `o` may be performed at `q`: `q` is in the issuer's domain and `o` was not performed there yet (R97). -/
def performEnabled (s : State) (o : PendingOp) (q : Nat) : Bool :=
  (osDomain s o.issuer).contains q && !o.performedAt.contains q

/-- What the perform step at `q` does to the operation: `q` joins the PEs it was performed at (R97), and the entries it matched there are kept with it (log 10). -/
def performedOp (s : State) (q : Nat) (o : PendingOp) : PendingOp :=
  { o with
    performedAt := o.performedAt ++ [q]
    matched := o.matched ++
      (match s.pes[q]? with
       | none => []
       | some pe => (matchSet s.cfg o.record pe.tlb).map (fun e => (q, e))) }

/-- The state after the perform step of `o` at `q` (R97). -/
def performStep (s : State) (o : PendingOp) (q : Nat) : State :=
  let t := s.modifyPe q (performAtPe s.cfg o)
  { t with
    pendingTLBI := t.pendingTLBI.map
      (fun o' => if o'.id = o.id then performedOp s q o' else o') }

/-- The perform step of operation `id` at `q` (R97). -/
def perform (id q : Nat) (s : State) : Host.Outcome State Fault Refusal :=
  match s.pendingTLBI.find? (fun o => o.id == id) with
  | none => .refused .eventNotEnabled
  | some o =>
    if performEnabled s o q then .next (performStep s o q) else .refused .eventNotEnabled

/-- The access of PE `q` uses old information of the operation: `usedEntries` contains an entry the operation matched at `q`, whenever the access came to use it (20 R59 (ii)), or the perform step marked it (R97). A marked access uses such an entry (`State.Inv.marksUse`). -/
def usesOld (o : PendingOp) (q : Nat) (a : Access) : Bool :=
  a.usedEntries.any (fun e => o.matched.contains (q, e)) || a.oldOf.contains o.id

/-- The operation waits for this access of PE `q`: the access uses old information of it and, for the nXS variant, has XS attribute 0 (20 R59, R60). -/
def waitsFor (o : PendingOp) (q : Nat) (a : Access) : Bool :=
  usesOld o q a &&
    (match o.attr with
     | .allAttr => true
     | .excludeXS => !a.xs)

/-- `o` has been performed at every PE of the issuer's domain, and at no other (R97). -/
def performedEverywhere (s : State) (o : PendingOp) : Bool :=
  (osDomain s o.issuer).all o.performedAt.contains
    && o.performedAt.all (osDomain s o.issuer).contains

/-- Every access of PE `q` that `o` waits for is complete (20 R59, R60). -/
def accessesDone (s : State) (o : PendingOp) (q : Nat) : Bool :=
  match s.pes[q]? with
  | none => true
  | some pe => pe.accesses.all (fun a => !waitsFor o q a || a.complete)

/-- `o` may become complete (R97; 20 R59, R60). -/
def completeEnabled (s : State) (o : PendingOp) : Bool :=
  performedEverywhere s o && (osDomain s o.issuer).all (accessesDone s o)

/-- The step "complete o": the operation leaves `pendingTLBI` (R97). -/
def completeOp (id : Nat) (s : State) : Host.Outcome State Fault Refusal :=
  match s.pendingTLBI.find? (fun o => o.id == id) with
  | none => .refused .eventNotEnabled
  | some o =>
    if completeEnabled s o then
      .next { s with pendingTLBI := s.pendingTLBI.filter (fun o' => o'.id != id) }
    else .refused .eventNotEnabled

/-- The value is an entry record (10_state.md R33): a VMID of `vmidWidth` bits and, for a stage 2 only entry, a range of at least 4096 bytes from a multiple of 4096. -/
def TlbEntry.wf (cfg : Config) (e : TlbEntry) : Bool :=
  decide (e.vmid < 2 ^ cfg.vmidWidth) &&
    (e.stage != .s2only || (decide (4096 ≤ e.ipaSize) && decide (e.ipaBase.toNat % 4096 = 0)))

/-- A move of the environment at PE `q`. -/
def atPe (q : Nat) (s : State) (f : Pe → Pe) : Host.Outcome State Fault Refusal :=
  if q < s.pes.length then .next (s.modifyPe q f) else .refused .noSuchPe

/-- A TLB gains an entry record (20 R67). -/
def gainEntry (q : Nat) (e : TlbEntry) (s : State) : Host.Outcome State Fault Refusal :=
  if e.wf s.cfg then
    atPe q s (fun pe => { pe with tlb := if pe.tlb.contains e then pe.tlb else pe.tlb ++ [e] })
  else .refused .eventNotEnabled

/-- A TLB loses an entry (20 R67; 40 R99). -/
def loseEntry (q : Nat) (e : TlbEntry) (s : State) : Host.Outcome State Fault Refusal :=
  atPe q s (fun pe => { pe with tlb := pe.tlb.filter (fun e' => e' != e) })

/-- A memory access begins (10 R36): not complete, and marked by no operation. -/
def beginAccess (q : Nat) (used : List TlbEntry) (xs : Bool) (s : State) : Host.Outcome State Fault Refusal :=
  atPe q s (fun pe => { pe with accesses := pe.accesses ++ [⟨used, xs, false, []⟩] })

/-- Change in-flight access number `i` of PE `q` where `ok` holds of it. -/
def onAccess (q i : Nat) (ok : Access → Bool) (f : Pe → Pe) (s : State) : Host.Outcome State Fault Refusal :=
  match s.pes[q]? with
  | none => .refused .noSuchPe
  | some pe =>
    match pe.accesses[i]? with
    | none => .refused .eventNotEnabled
    | some a => if ok a then .next (s.modifyPe q f) else .refused .eventNotEnabled

/-- The access is translated through one more entry. -/
def useEntry (e : TlbEntry) (a : Access) : Access :=
  if a.usedEntries.contains e then a else { a with usedEntries := a.usedEntries ++ [e] }

/-- The access is complete. -/
def finish (a : Access) : Access := { a with complete := true }

/-- An access that is not complete is translated through one more entry (10 R36, log 11). -/
def extendAccess (q i : Nat) (e : TlbEntry) (s : State) : Host.Outcome State Fault Refusal :=
  onAccess q i (fun a => !a.complete)
    (fun pe => { pe with accesses := pe.accesses.modify i (useEntry e) }) s

/-- An access completes (10 R36, log 11). -/
def finishAccess (q i : Nat) (s : State) : Host.Outcome State Fault Refusal :=
  onAccess q i (fun a => !a.complete)
    (fun pe => { pe with accesses := pe.accesses.modify i finish }) s

/-- A complete access is no longer in flight (10 R36, log 11). -/
def retireAccess (q i : Nat) (s : State) : Host.Outcome State Fault Refusal :=
  onAccess q i (fun a => a.complete)
    (fun pe => { pe with accesses := pe.accesses.eraseIdx i }) s

end Sys2Proof.Machine
end

