-- ==== Sys2Proof/Machine/Tlbip.lean ====
section
/-! DEFINITION. The two instructions (spec/40_tlbip_ipas2le1os.md R96, R100, R101). -/

namespace Sys2Proof.Machine

/-- `AArch64.TLBIP_IPAS2(ss, Regime_EL10, vmid, Shareability_OSH, TLBILevel_Last, attr, op128)`, executed by the executing PE (R96). -/
def tlbipIpas2 (ss : SecurityState) (vmid : Nat) (attr : Attr) (op : Operand) (s : State) : Host.Outcome State Fault Refusal :=
  match ipaSpaceOf s.cfg ss (nsBit op) with
  | none => .refused .noIpaSpace
  | some (space, nsRes0) =>
    if res0BitSet s.cfg nsRes0 op && s.cfg.res0Policy == .refuse then .refused .res0Set
    else
      .next (addPending ⟨ss, specifiedIpa op, space, vmid, liveTtl s.cfg (ttlField op)⟩ attr s)

/-- The invalidation arm of both variants: `TLBIP_IPAS2(SecurityStateAtEL1(), VMID[], attr, x[t2] : x[t])`, then `pc <- pc + instrBytes` (R100, R101). -/
def invalidate (attr : Attr) (t t2 : Nat) (pe : Pe) (s : State) : Host.Outcome State Fault Refusal :=
  match securityStateAtEL1 s.cfg pe with
  | none => .refused .securityStateReserved
  | some ss =>
    andThen (tlbipIpas2 ss (currentVmid s.cfg pe) attr (operandOf pe t t2) s)
      (fun s' => .next (advancePc s'))

/-- The tests of the Exception level, the same in both variants (R100, R101; 60_exceptions.md R130). -/
def byExceptionLevel (attr : Attr) (t t2 : Nat) (pe : Pe) (s : State) : Host.Outcome State Fault Refusal :=
  match pe.el with
  | .el0 => .next (takeException (.undefined .u3) s)
  | .el1 =>
    if el2Enabled s.cfg pe && hcrNV s.cfg pe then
      .next (takeException (.systemAccessTrap .el2 0x14) s)
    else .next (takeException (.undefined .u4) s)
  | .el2 => invalidate attr t t2 pe s
  | .el3 =>
    if !el2Enabled s.cfg pe then .next (advancePc s)
    else invalidate attr t t2 pe s

/-- `TLBIP IPAS2LE1OS{, <Xt>, <Xt2>}` (R100): the pairing test, FEAT_D128, then the Exception level (60 R125). -/
def execTlbipIpas2le1os (t : Nat) (s : State) : Host.Outcome State Fault Refusal :=
  withCur s (fun pe =>
    match pairOf s.cfg t with
    | none => .next (takeException (.undefined .u5) s)
    | some t2 =>
      if !s.cfg.featD128 then .next (takeException (.undefined .u1) s)
      else byExceptionLevel .allAttr t t2 pe s)

/-- `TLBIP IPAS2LE1OSNXS{, <Xt>, <Xt2>}` (R101): as the base variant, with the FEAT_XS test before the Exception level and `TLBI_ExcludeXS`. -/
def execTlbipIpas2le1osnxs (t : Nat) (s : State) : Host.Outcome State Fault Refusal :=
  withCur s (fun pe =>
    match pairOf s.cfg t with
    | none => .next (takeException (.undefined .u5) s)
    | some t2 =>
      if !s.cfg.featD128 then .next (takeException (.undefined .u1) s)
      else if !s.cfg.featXS then .next (takeException (.undefined .u2) s)
      else byExceptionLevel .excludeXS t t2 pe s)

end Sys2Proof.Machine
end

