-- ==== Sys2Proof/Syntax.lean ====
section
/-! DEFINITION. The instructions (spec/opcode_table.json; 40_tlbip_ipas2le1os.md R100, R101). -/

namespace Sys2Proof

/-- One constructor per row of the opcode table. `t` is the index of `<Xt>`, the word's Rt field. `<Xt2>` has no field of its own: `t2 = pairRule(t)` (30_encoding.md R75). The form with the operands omitted is `t = 31` (R88, 92 D28, log 25). -/
inductive Instr where
  /-- `TLBIP IPAS2LE1OS{, <Xt>, <Xt2>}`: the base variant (R100) -/
  | tlbipIpas2le1os (t : Nat)
  /-- `TLBIP IPAS2LE1OSNXS{, <Xt>, <Xt2>}`: the nXS variant (R101) -/
  | tlbipIpas2le1osnxs (t : Nat)
  deriving DecidableEq, Repr

/-- The Rt index an assembler line names: the given one, or 31 where the two register operands are omitted (30_encoding.md R88, R103 (a)). PRESUMED (log 25). -/
def asmRt (operand : Option Nat) : Nat := operand.getD 31

/-- The index `t` of an instruction. -/
def Instr.rt : Instr → Nat
  | .tlbipIpas2le1os t => t
  | .tlbipIpas2le1osnxs t => t

end Sys2Proof
end

