-- ==== Sys2Proof/Machine/Dispatch.lean ====
section
/-! DEFINITION. One arm per constructor of `Instr`. -/

namespace Sys2Proof.Machine

/-- What an instruction does at the executing PE. -/
def exec (i : Instr) (s : State) : Host.Outcome State Fault Refusal :=
  match i with
  | .tlbipIpas2le1os t => Sys2Proof.Machine.execTlbipIpas2le1os t s
  | .tlbipIpas2le1osnxs t => Sys2Proof.Machine.execTlbipIpas2le1osnxs t s

end Sys2Proof.Machine
end

