-- ==== Sys2Proof/WellFormed.lean ====
section
/-! DEFINITION. Which terms of `Instr` stand for an instruction: `t` is a value of the 5-bit field Rt (spec/30_encoding.md R74, R75). An odd `t` is well formed: its word exists, and executing it raises Undefined (60_exceptions.md R121 cause U5). -/

namespace Sys2Proof

/-- Rt has 5 bits. -/
def Instr.wellFormed (i : Instr) : Bool := decide (i.rt < 32)

end Sys2Proof
end

