-- ==== Sys2Proof/Decode.lean ====
section
/-! DEFINITION. The decoder, total on any bytes, and the encoder, both written from spec/30_encoding.md R70 to R75, R85, R87 and 20_memory.md R53. The word layout of R74 and the byte order of R53 are PRESUMED (log 5). -/

namespace Sys2Proof

/-- A point of the System instruction encoding space (R70). -/
structure SysTuple where
  op0 : BitVec 2
  op1 : BitVec 3
  crn : BitVec 4
  crm : BitVec 4
  op2 : BitVec 3
  deriving DecidableEq, Repr

/-- Why bytes are not an instruction of this model. -/
inductive DecodeError where
  /-- fewer than four bytes -/
  | truncated
  /-- the word is neither pattern of R74: the spec says nothing of it (R87) -/
  | notInThisSpec
  deriving DecidableEq, Repr

/-- The encoding of `TLBIP IPAS2LE1OS` (R71). -/
def tupleBase : SysTuple := ⟨0b01, 0b100, 0b1000, 0b0100, 0b100⟩

/-- The encoding of `TLBIP IPAS2LE1OSNXS` (R72). -/
def tupleNxs : SysTuple := ⟨0b01, 0b100, 0b1001, 0b0100, 0b100⟩

/-- The instruction of a tuple and a register index (R71, R72); every other tuple is outside the spec (R87). -/
def decodeTuple (s : SysTuple) (t : Nat) : Except DecodeError Instr :=
  if s = tupleBase then .ok (.tlbipIpas2le1os t)
  else if s = tupleNxs then .ok (.tlbipIpas2le1osnxs t)
  else .error .notInThisSpec

/-- Bits [31:21] of a `SYSP` word: `1101010101` and `L = 0` (R74). -/
def sysHead : BitVec 11 := 0b11010101010

/-- The five fields of a word, bits [20:5] (R74). -/
def tupleOfWord (w : Word) : SysTuple where
  op0 := w.extractLsb' 19 2
  op1 := w.extractLsb' 16 3
  crn := w.extractLsb' 12 4
  crm := w.extractLsb' 8 4
  op2 := w.extractLsb' 5 3

/-- Decode one instruction word (R74, R87). -/
def decodeWord (w : Word) : Except DecodeError Instr :=
  if w.extractLsb' 21 11 = sysHead then
    decodeTuple (tupleOfWord w) (w.extractLsb' 0 5).toNat
  else .error .notInThisSpec

/-- The word of four bytes, the least significant at the lowest address (20_memory.md R53). -/
def wordOfBytes (b0 b1 b2 b3 : Byte) : Word := b3 ++ b2 ++ b1 ++ b0

/-- Decode the instruction at the head of a list of bytes, and give the bytes after it (R85: four bytes). -/
def decode : List Byte → Except DecodeError (Instr × List Byte)
  | b0 :: b1 :: b2 :: b3 :: rest =>
    match decodeWord (wordOfBytes b0 b1 b2 b3) with
    | .ok i => .ok (i, rest)
    | .error e => .error e
  | _ => .error .truncated

/-- The tuple of an instruction (R71, R72). -/
def Instr.tuple : Instr → SysTuple
  | .tlbipIpas2le1os _ => tupleBase
  | .tlbipIpas2le1osnxs _ => tupleNxs

/-- The word with a given tuple and Rt (R74). -/
def wordOfTuple (s : SysTuple) (rt : BitVec 5) : Word :=
  sysHead ++ s.op0 ++ s.op1 ++ s.crn ++ s.crm ++ s.op2 ++ rt

/-- The word of an instruction (R74, R75). -/
def encodeWord (i : Instr) : Word := wordOfTuple i.tuple (BitVec.ofNat 5 i.rt)

/-- The four bytes of a word, the least significant at the lowest address (20_memory.md R53). -/
def bytesOfWord (w : Word) : List Byte :=
  [w.extractLsb' 0 8, w.extractLsb' 8 8, w.extractLsb' 16 8, w.extractLsb' 24 8]

/-- The bytes of an instruction in memory order. -/
def encode (i : Instr) : List Byte := bytesOfWord (encodeWord i)

/-- The bytes, lowest address first, of an instruction whose bits are `w` numbered as opcode_table.json numbers them: the low `nbits` bits of `w`, and zero above up to the four bytes of an instruction. -/
def tableBytes (nbits w : Nat) : List Byte :=
  (List.range (max 4 ((nbits + 7) / 8))).map
    (fun k => BitVec.ofNat 8 (w % 2 ^ nbits / 2 ^ (8 * k)))

/-- What the decoder reads from an instruction given as the opcode table numbers its bits. -/
def decodeTableWord (nbits w : Nat) : Option Instr :=
  match decode (tableBytes nbits w) with
  | .ok (i, _) => some i
  | .error _ => none

end Sys2Proof
end

