-- ==== Sys2Proof/Machine/Fetch.lean ====
section
/-! DEFINITION. Fetching the next instruction of a PE from its program text (spec/70_reset_and_hazards.md R152; 20_memory.md R53, R54; 10_state.md R23). -/

namespace Sys2Proof.Machine

/-- The PE's program counter is just past its program (R152), whose instructions lie `instrBytes` apart. DESIGN CHOICE where `instrBytes` is not 4 (log 35). -/
def exitedPc (cfg : Config) (pe : Pe) : Bool :=
  decide (pe.pc.toNat = pe.prog.base.toNat + cfg.instrBytes * pe.prog.len)

/-- The PE's program counter is the address of one of its instructions (R152). With `instrBytes` other than 4 the spec does not say where a program's instructions lie (R152 writes `progBase + 4 * i`): the model puts them `instrBytes` apart. DESIGN CHOICE (log 35). -/
def inProgram (cfg : Config) (pe : Pe) : Bool :=
  decide (pe.prog.base.toNat ≤ pe.pc.toNat)
    && decide ((pe.pc.toNat - pe.prog.base.toNat) % cfg.instrBytes = 0)
    && decide (pe.pc.toNat < pe.prog.base.toNat + cfg.instrBytes * pe.prog.len)

/-- The four bytes from an address on, where the text has them all. -/
def fetchBytes (m : List Host.Cell) (a : Nat) : Option (Byte × Byte × Byte × Byte) :=
  match Memory.read m a, Memory.read m (a + 1), Memory.read m (a + 2), Memory.read m (a + 3) with
  | some b0, some b1, some b2, some b3 => some (b0, b1, b2, b3)
  | _, _, _, _ => none

/-- The instruction of four bytes (20 R53), or the refusal of 30 R87. -/
def decodeFetched (b0 b1 b2 b3 : Byte) : Host.Outcome Instr Fault Refusal :=
  match decode [b0, b1, b2, b3] with
  | .ok (i, _) => .next i
  | .error _ => .refused .notInThisSpec

/-- The instruction at a PE's program counter. It makes no memory access and uses no TLB entry (R152). It asks for a multiple of 4 (20 R54) and reads four bytes (30 R85) whatever `instrBytes` is, and its wrap test is of `pc + instrBytes`, where 10 R23 and D3 write `pc + 4`. DESIGN CHOICE where `instrBytes` is not 4 (log 35). -/
def fetch (cfg : Config) (pe : Pe) : Host.Outcome Instr Fault Refusal :=
  if pe.pc.toNat % 4 != 0 then .refused .pcMisaligned
  else if exitedPc cfg pe then .fault .exited
  else if !inProgram cfg pe then .refused .pcOutsideProgram
  else if 2 ^ 64 ≤ pe.pc.toNat + cfg.instrBytes then .refused .pcWraps
  else
    match fetchBytes pe.prog.text pe.pc.toNat with
    | none => .refused .noText
    | some (b0, b1, b2, b3) => decodeFetched b0 b1 b2 b3

/-- A PE with the bytes put at its program counter as its whole program, of one instruction, and no exception recorded: what fetching them as its next instruction needs. -/
def placeAtPc (bytes : List Byte) (pe : Pe) : Pe :=
  { pe with
    exception := none
    prog := ⟨pe.pc, 1, Memory.writeBytes pe.prog.text pe.pc.toNat bytes⟩ }

end Sys2Proof.Machine
end

