-- ==== Sys2Proof/Machine/Run.lean ====
section
/-! DEFINITION. The moves of the agents (spec/10_state.md R20; log 2). -/

namespace Sys2Proof.Machine

/-- The executing PE takes a step: a PE that has recorded an exception takes none (60_exceptions.md R126), any other executes the instruction at its program counter (70 R152). -/
def runCurrent (s : State) : Host.Outcome State Fault Refusal :=
  withCur s (fun pe =>
    match pe.exception with
    | some e => .fault (.exception e)
    | none => andThen (fetch s.cfg pe) (fun i => exec i s))

/-- One move. -/
def handleEvent (ev : Event) (s : State) : Host.Outcome State Fault Refusal :=
  match ev with
  | .run p => runCurrent { s with cur := p }
  | .perform id q => perform id q s
  | .complete id => completeOp id s
  | .gain q e => gainEntry q e s
  | .lose q e => loseEntry q e s
  | .accessBegin q used xs => beginAccess q used xs s
  | .accessUses q i e => extendAccess q i e s
  | .accessComplete q i => finishAccess q i s
  | .accessRetire q i => retireAccess q i s

/-- The state with an instruction's bytes placed where the executing PE fetches next, and that fetch the next move. -/
def placeNext (bytes : List Byte) (s : State) : State :=
  { s.modifyPe s.cur (placeAtPc bytes) with agenda := [] }

end Sys2Proof.Machine
end

