-- ==== Sys2Proof/Machine/Step.lean ====
section
/-! DEFINITION. One step of the machine: the first move of the agenda, or, where the agenda is empty, the executing PE's next instruction (log 2). -/

namespace Sys2Proof.Machine

/-- One step. -/
def step (s : State) : Host.Outcome State Fault Refusal :=
  match s.agenda with
  | [] => runCurrent s
  | ev :: rest => handleEvent ev { s with agenda := rest }

/-- `s` with the instruction whose bits are `w` (numbered as spec/opcode_table.json numbers them) stored where `step` fetches next. It stands for the load of a program of one instruction (log 4). -/
def State.withFetchWord (s : State) (nbits w : Nat) : State :=
  placeNext (tableBytes nbits w) s

end Sys2Proof.Machine
end

