-- ==== Sys2Proof/Safety.lean ====
section
/-! DEFINITION. What claims are stated in terms of: the launch premises of spec/70_reset_and_hazards.md R142, final states (R152), and the invariants of the model. -/

namespace Sys2Proof.Machine

/-- P1 `el_valid`: an Exception level that is not implemented is not current. -/
def elValid (cfg : Config) (pe : Pe) : Bool :=
  (pe.el != .el2 || cfg.haveEL2) && (pe.el != .el3 || cfg.haveEL3)

/-- P2 `el2_enabled_at_el2`. -/
def el2EnabledAtEl2 (cfg : Config) (pe : Pe) : Bool := pe.el != .el2 || el2Enabled cfg pe

/-- P3 `el2_enabled_impl`. -/
def el2EnabledImpl (cfg : Config) (pe : Pe) : Bool := !pe.el2EnabledField || cfg.haveEL2

/-- P4 `secure_el2_needs_sel2`. -/
def secureEl2NeedsSel2 (cfg : Config) (pe : Pe) : Bool :=
  !(el2Enabled cfg pe && securityStateAtEL1 cfg pe == some .secure) || cfg.featSEL2

/-- P5 `realm_needs_rme`. -/
def realmNeedsRme (cfg : Config) (pe : Pe) : Bool :=
  securityStateAtEL1 cfg pe != some .realm || cfg.featRME

/-- The PE is on a path that issues an invalidation: with FEAT_D128, at EL2 or at EL3 with EL2 enabled (60 R130). -/
def invalidating (cfg : Config) (pe : Pe) : Bool :=
  cfg.featD128 && (pe.el == .el2 || (pe.el == .el3 && el2Enabled cfg pe))

/-- Executing `i` at the PE takes the invalidation path: the PE is on it, and neither U5 nor U2 comes before it (60 R125). -/
def takesInvalidation (cfg : Config) (pe : Pe) (i : Instr) : Bool :=
  invalidating cfg pe && (pairOf cfg i.rt).isSome &&
    (match i with
     | .tlbipIpas2le1os _ => true
     | .tlbipIpas2le1osnxs _ => cfg.featXS)

/-- What P6 `nse_ns_legal` asks where the PE executes `i`. -/
def nseNsLegalFor (cfg : Config) (pe : Pe) (i : Instr) : Bool :=
  !(cfg.featRME && cfg.haveEL3 && takesInvalidation cfg pe i) || !(pe.scrNSE && !pe.scrNS)

/-- P6 `nse_ns_legal`, asked only where the invalidation path is taken: of the PE's next instruction. Where that one does not take the path, no later one does (log 36). -/
def nseNsLegal (cfg : Config) (pe : Pe) : Bool :=
  match fetch cfg pe with
  | .next i => nseNsLegalFor cfg pe i
  | .fault _ => true
  | .refused _ => true

/-- P9 `pc_aligned`. R142 writes `pc + 4`: for an `instrBytes` other than 4 the sum is `pc + instrBytes`. DESIGN CHOICE (log 35). -/
def pcAligned (cfg : Config) (pe : Pe) : Bool :=
  decide (pe.pc.toNat % 4 = 0) && decide (pe.pc.toNat + cfg.instrBytes < 2 ^ 64)

/-- R152: at launch `pc = progBase[p]`. -/
def pcAtBase (pe : Pe) : Bool := pe.pc == pe.prog.base

/-- The premises R142 makes of one PE, with R152's `pc = progBase[p]`, and no exception recorded, since nothing has executed (log 3). P7 `regs_written` holds of every state: every register holds a value. -/
def peLaunch (cfg : Config) (pe : Pe) : Bool :=
  elValid cfg pe && el2EnabledAtEl2 cfg pe && el2EnabledImpl cfg pe && secureEl2NeedsSel2 cfg pe
    && realmNeedsRme cfg pe && nseNsLegal cfg pe && pcAligned cfg pe
    && pcAtBase pe && pe.exception.isNone

/-- A launch state: the premises of R142, P8 `nothing_pending` among them, and every PE at the first instruction of its program (R152). -/
def State.launch (s : State) : Bool := s.pes.all (peLaunch s.cfg) && s.pendingTLBI.isEmpty

/-- A final state (R152): every PE has exited, none has recorded an exception, and nothing is pending. -/
def State.isFinal (s : State) : Bool :=
  s.pes.all (fun pe => exitedPc s.cfg pe && pe.exception.isNone) && s.pendingTLBI.isEmpty

/-- The IPA space of a record is one its Security state can target (40 R92). -/
def TlbiRecord.spaceLegal (r : TlbiRecord) : Prop :=
  match r.ss with
  | .secure => r.ipaSpace ≠ .realmIPA
  | .nonSecure => r.ipaSpace = .nonSecureIPA
  | .realm => r.ipaSpace = .realmIPA

/-- A pending operation as the model forms it. -/
structure PendingOp.Good (s : State) (o : PendingOp) : Prop where
  /-- its number has been given out -/
  numbered : o.id < s.nextOp
  /-- its issuer is a PE -/
  issuer : o.issuer < s.pes.length
  /-- it was performed at PEs of the issuer's domain, once each (40 R97) -/
  performedIn : ∀ q ∈ o.performedAt, q ∈ osDomain s o.issuer
  performedOnce : o.performedAt.Nodup
  /-- it keeps entries that it matches, of PEs it was performed at (40 R97) -/
  matchedThere : ∀ x ∈ o.matched, x.1 ∈ o.performedAt ∧ entryMatches s.cfg o.record x.2 = true
  /-- the IPA's bits [11:0] are zero (30 R79) -/
  ipaPage : o.record.ipa.toNat % 4096 = 0
  /-- the VMID is a string of vmidWidth bits (10 R28) -/
  vmidFits : o.record.vmid < 2 ^ s.cfg.vmidWidth
  space : o.record.spaceLegal

/-- A PE as the model forms it: a canonical program text, and a TLB that is a set of entry records (10 R32, R33). -/
structure Pe.Good (cfg : Config) (pe : Pe) : Prop where
  text : Memory.wf pe.prog.text
  tlbSet : pe.tlb.Nodup
  tlbRecords : ∀ e ∈ pe.tlb, e.wf cfg = true

/-- The invariant of the machine. -/
structure State.Inv (s : State) : Prop where
  pes : ∀ pe ∈ s.pes, pe.Good s.cfg
  ops : ∀ o ∈ s.pendingTLBI, o.Good s
  /-- no two pending operations have one number (40 R104) -/
  idsDistinct : (s.pendingTLBI.map (·.id)).Nodup
  /-- an access is marked only with numbers given out (40 R97) -/
  marks : ∀ pe ∈ s.pes, ∀ a ∈ pe.accesses, ∀ n ∈ a.oldOf, n < s.nextOp
  /-- an access marked by a pending operation uses an entry the operation matched at its PE (40 R97, 20 R59) -/
  marksUse : ∀ q pe, s.pes[q]? = some pe → ∀ a ∈ pe.accesses, ∀ o ∈ s.pendingTLBI, o.id ∈ a.oldOf →
    ∃ e ∈ a.usedEntries, (q, e) ∈ o.matched

/-- The program counter of a PE is the address of one of its instructions or just past the last (70 R152), where the program is 4-aligned and ends below the top of the address space. -/
structure Pe.PcGood (pe : Pe) : Prop where
  base : pe.prog.base.toNat % 4 = 0
  top : pe.prog.base.toNat + 4 * pe.prog.len < 2 ^ 64
  place : ∃ k, k ≤ pe.prog.len ∧ pe.pc.toNat = pe.prog.base.toNat + 4 * k

/-- Every PE's program counter is in place. -/
def State.PcInv (s : State) : Prop := s.cfg.instrBytes = 4 ∧ ∀ pe ∈ s.pes, pe.PcGood

/-- Change the next state of an outcome. -/
def mapNext (f : State → State) (o : Host.Outcome State Fault Refusal) : Host.Outcome State Fault Refusal :=
  andThen o (fun s => .next (f s))

end Sys2Proof.Machine
end

