-- ==== Sys2Proof/Certificates/Slice0/Obligations.lean ====
section
/-! DEFINITION. The statements for the provers, from spec/'s numbered rules. -/

open Sys2Proof Sys2Proof.Machine

/-! ### Encoding -/

/-- R71, R72: the two tuples of the System instruction encoding space name the two variants, for every register index. -/
def Obligations.EncodingTuplesNameTheTwoVariants : Prop :=
  ∀ t : Nat,
    decodeTuple ⟨0b01, 0b100, 0b1000, 0b0100, 0b100⟩ t = .ok (.tlbipIpas2le1os t) ∧
    decodeTuple ⟨0b01, 0b100, 0b1001, 0b0100, 0b100⟩ t = .ok (.tlbipIpas2le1osnxs t)

/-- 95_test_vectors.md section 2.7: six instruction words in memory order. The word layout and the byte order are PRESUMED (log 5). -/
def Obligations.SpecInstructionWordsDecode : Prop :=
  decode [0x80, 0x84, 0x4c, 0xd5] = .ok (.tlbipIpas2le1os 0, []) ∧
  decode [0x9e, 0x84, 0x4c, 0xd5] = .ok (.tlbipIpas2le1os 30, []) ∧
  decode [0x81, 0x84, 0x4c, 0xd5] = .ok (.tlbipIpas2le1os 1, []) ∧
  decode [0x82, 0x94, 0x4c, 0xd5] = .ok (.tlbipIpas2le1osnxs 2, []) ∧
  decode [0x9f, 0x94, 0x4c, 0xd5] = .ok (.tlbipIpas2le1osnxs 31, []) ∧
  decode [0x80, 0x84, 0x0c, 0xd5] = .error .notInThisSpec

/-- Decoding the bytes of any well-formed instruction gives it back, with the bytes that follow it. The layout and the byte order of the words are PRESUMED (log 5). -/
def Obligations.DecodeOfEncodeIsTheInstruction : Prop :=
  ∀ (i : Instr) (rest : List Byte), i.wellFormed = true → decode (encode i ++ rest) = .ok (i, rest)

/-- Whatever bytes decode to an instruction are the bytes of that instruction, which is well formed: the decoder ignores no bit. The layout and the byte order of the words are PRESUMED (log 5). -/
def Obligations.DecodedBytesAreTheEncoding : Prop :=
  ∀ (bs rest : List Byte) (i : Instr),
    decode bs = .ok (i, rest) → i.wellFormed = true ∧ bs = encode i ++ rest

/-- R87, with the patterns of R74 (PRESUMED, log 5): the decoder answers "not in this spec" exactly for a word that is neither pattern. -/
def Obligations.OnlyTheTwoPatternsDecode : Prop :=
  ∀ w : Word, decodeWord w = .error .notInThisSpec ↔
    (w &&& 0xFFFFFFE0 ≠ 0xD54C8480 ∧ w &&& 0xFFFFFFE0 ≠ 0xD54C9480)

/-! ### Fetch and step -/

/-- Where the agenda's next move is the executing PE's (an empty agenda, or the move `run p`), the PE has recorded no exception, and its program counter is aligned, in its program and not at the top of the address space, the step is the decoded instruction at that state. The agenda (log 2), the bytes of the text (log 4), the byte order (log 5) and, where `instrBytes` is not 4, the places of the instructions (log 35) are the model's choice. -/
def Obligations.StepRunsTheDecodedInstruction : Prop :=
  ∀ (s : State) (pe : Pe) (b0 b1 b2 b3 : Byte) (i : Instr),
    s.pes[s.cur]? = some pe → pe.exception = none →
    pe.pc.toNat % 4 = 0 → inProgram s.cfg pe = true → pe.pc.toNat + s.cfg.instrBytes < 2 ^ 64 →
    Memory.read pe.prog.text pe.pc.toNat = some b0 →
    Memory.read pe.prog.text (pe.pc.toNat + 1) = some b1 →
    Memory.read pe.prog.text (pe.pc.toNat + 2) = some b2 →
    Memory.read pe.prog.text (pe.pc.toNat + 3) = some b3 →
    decode [b0, b1, b2, b3] = .ok (i, []) →
    (s.agenda = [] → step s = exec i s) ∧
    (∀ p, step { s with cur := p, agenda := .run s.cur :: s.agenda } = exec i s)

/-- The same place, with bytes outside the spec: refused by name (R87). The bytes of the text (log 4) and the word layout (log 5) are the model's choice. -/
def Obligations.WordOutsideTheSpecIsRefused : Prop :=
  ∀ (s : State) (pe : Pe) (b0 b1 b2 b3 : Byte),
    s.pes[s.cur]? = some pe → pe.exception = none →
    pe.pc.toNat % 4 = 0 → inProgram s.cfg pe = true → pe.pc.toNat + s.cfg.instrBytes < 2 ^ 64 →
    Memory.read pe.prog.text pe.pc.toNat = some b0 →
    Memory.read pe.prog.text (pe.pc.toNat + 1) = some b1 →
    Memory.read pe.prog.text (pe.pc.toNat + 2) = some b2 →
    Memory.read pe.prog.text (pe.pc.toNat + 3) = some b3 →
    wordOfBytes b0 b1 b2 b3 &&& 0xFFFFFFE0 ≠ 0xD54C8480 →
    wordOfBytes b0 b1 b2 b3 &&& 0xFFFFFFE0 ≠ 0xD54C9480 →
    runCurrent s = .refused .notInThisSpec

/-- R54, R23 (decisions D16, D3): a program counter that is not a multiple of 4 is refused, and so is one, in the program, whose successor would wrap. The refusals are decisions of the spec (log 17), and for an `instrBytes` other than 4 the wrap test is the model's choice (log 35). -/
def Obligations.BadProgramCounterIsRefused : Prop :=
  ∀ (s : State) (pe : Pe), s.pes[s.cur]? = some pe → pe.exception = none →
    (pe.pc.toNat % 4 ≠ 0 → runCurrent s = .refused .pcMisaligned) ∧
    (pe.pc.toNat % 4 = 0 → inProgram s.cfg pe = true → 2 ^ 64 ≤ pe.pc.toNat + s.cfg.instrBytes →
      runCurrent s = .refused .pcWraps)

/-- R152 (decision D31): a PE that has exited takes no further step. That the step is then a fault (log 28), and that instructions lie `instrBytes` apart (log 35), are the model's choice. -/
def Obligations.ExitedPeTakesNoStep : Prop :=
  ∀ (s : State) (pe : Pe), s.pes[s.cur]? = some pe → pe.exception = none →
    pe.pc.toNat % 4 = 0 → pe.pc.toNat = pe.prog.base.toNat + s.cfg.instrBytes * pe.prog.len →
    runCurrent s = .fault .exited

/-! ### The invalidation -/

/-- R100, R96: at EL2, or at EL3 with EL2 enabled, the base variant adds one operation with `AllAttr`, built from the issuer's Security state, VMID and register pair, and advances the program counter. The TTL of the record is the field as written where no res0 bit is set, and under `res0Policy = ignore` the field with its res0 bits masked to zero: 0 without FEAT_TTL or where TTL[3:2] is `0b00`, else the field as written (R83, decisions D5 and D22, log 12 and log 21). The number of the operation (log 8) and the sampling of VMID[] to vmidWidth bits (log 16) are the model's. -/
def Obligations.BaseVariantIssuesAnAllAttrOperation : Prop :=
  ∀ (s : State) (pe : Pe) (t t2 : Nat) (ss : SecurityState) (space : IpaSpace) (nsRes0 : Bool) (ttl : BitVec 4),
    s.pes[s.cur]? = some pe → pairOf s.cfg t = some t2 → s.cfg.featD128 = true →
    (pe.el = .el2 ∨ (pe.el = .el3 ∧ el2Enabled s.cfg pe = true)) →
    securityStateAtEL1 s.cfg pe = some ss →
    ipaSpaceOf s.cfg ss (nsBit (operandOf pe t t2)) = some (space, nsRes0) →
    ((res0BitSet s.cfg nsRes0 (operandOf pe t t2) = false ∧ ttl = (readX pe t).extractLsb' 44 4) ∨
     (s.cfg.res0Policy = .ignore ∧
      ttl = if s.cfg.featTTL = false ∨ (readX pe t).extractLsb' 46 2 = 0 then 0
        else (readX pe t).extractLsb' 44 4)) →
    exec (.tlbipIpas2le1os t) s = .next
      { s with
        pes := s.pes.set s.cur { pe with pc := pe.pc + BitVec.ofNat 64 s.cfg.instrBytes }
        pendingTLBI := s.pendingTLBI ++
          [{ id := s.nextOp
             issuer := s.cur
             record :=
               { ss := ss
                 ipa := (readX pe t2).extractLsb' 0 44 ++ 0#12
                 ipaSpace := space
                 vmid := pe.vmid % 2 ^ s.cfg.vmidWidth
                 ttl := ttl }
             attr := .allAttr
             performedAt := []
             matched := [] }]
        nextOp := s.nextOp + 1 }

/-- R101, R96: the same of the nXS variant, with `ExcludeXS`, where FEAT_XS is implemented. The TTL of the record is the field as written where no res0 bit is set, and under `res0Policy = ignore` the field with its res0 bits masked to zero: 0 without FEAT_TTL or where TTL[3:2] is `0b00`, else the field as written (R83, decisions D5 and D22, log 12 and log 21). The number of the operation (log 8) and the sampling of VMID[] to vmidWidth bits (log 16) are the model's. -/
def Obligations.NxsVariantIssuesAnExcludeXsOperation : Prop :=
  ∀ (s : State) (pe : Pe) (t t2 : Nat) (ss : SecurityState) (space : IpaSpace) (nsRes0 : Bool) (ttl : BitVec 4),
    s.pes[s.cur]? = some pe → pairOf s.cfg t = some t2 → s.cfg.featD128 = true → s.cfg.featXS = true →
    (pe.el = .el2 ∨ (pe.el = .el3 ∧ el2Enabled s.cfg pe = true)) →
    securityStateAtEL1 s.cfg pe = some ss →
    ipaSpaceOf s.cfg ss (nsBit (operandOf pe t t2)) = some (space, nsRes0) →
    ((res0BitSet s.cfg nsRes0 (operandOf pe t t2) = false ∧ ttl = (readX pe t).extractLsb' 44 4) ∨
     (s.cfg.res0Policy = .ignore ∧
      ttl = if s.cfg.featTTL = false ∨ (readX pe t).extractLsb' 46 2 = 0 then 0
        else (readX pe t).extractLsb' 44 4)) →
    exec (.tlbipIpas2le1osnxs t) s = .next
      { s with
        pes := s.pes.set s.cur { pe with pc := pe.pc + BitVec.ofNat 64 s.cfg.instrBytes }
        pendingTLBI := s.pendingTLBI ++
          [{ id := s.nextOp
             issuer := s.cur
             record :=
               { ss := ss
                 ipa := (readX pe t2).extractLsb' 0 44 ++ 0#12
                 ipaSpace := space
                 vmid := pe.vmid % 2 ^ s.cfg.vmidWidth
                 ttl := ttl }
             attr := .excludeXS
             performedAt := []
             matched := [] }]
        nextOp := s.nextOp + 1 }

/-- R61: the two variants do the same but for the attribute of the operation: whatever the base variant answers (a next state, or a refusal), the nXS variant answers the same, with `ExcludeXS` in the place of `AllAttr` in what it adds to the pending operations. -/
def Obligations.VariantsPerformTheSameInvalidation : Prop :=
  ∀ (s : State) (t : Nat), s.cfg.featXS = true →
    exec (.tlbipIpas2le1osnxs t) s =
      mapNext
        (fun s1 => { s1 with
          pendingTLBI := s.pendingTLBI ++
            (s1.pendingTLBI.drop s.pendingTLBI.length).map (fun o => { o with attr := .excludeXS }) })
        (exec (.tlbipIpas2le1os t) s)

/-- R83, R96 (`res0Set`): which bits of the two registers are res0 bits of the operand. `nsRes0` is whether the NS bit is one (R92). -/
def Obligations.Res0BitsByRegisterBits : Prop :=
  ∀ (cfg : Config) (pe : Pe) (t t2 : Nat) (nsRes0 : Bool),
    res0BitSet cfg nsRes0 (operandOf pe t t2) = true ↔
      ((readX pe t2).extractLsb' 44 20 ≠ 0 ∨
       (readX pe t).extractLsb' 48 15 ≠ 0 ∨
       (readX pe t).extractLsb' 0 44 ≠ 0 ∨
       (nsRes0 = true ∧ (readX pe t).getLsbD 63 = true) ∨
       (cfg.featTTL = false ∧ (readX pe t).extractLsb' 44 4 ≠ 0) ∨
       (cfg.featTTL = true ∧ (readX pe t).extractLsb' 46 2 = 0 ∧ (readX pe t).extractLsb' 44 2 ≠ 0))

/-- R83 under `res0Policy = refuse` (D5): an execution that reaches the invalidation with a res0 bit of the registers set (R96's list) is refused, in both variants. The refusal is a decision of the spec (log 12). -/
def Obligations.SetRes0BitIsRefused : Prop :=
  ∀ (s : State) (pe : Pe) (t t2 : Nat) (ss : SecurityState) (space : IpaSpace) (nsRes0 : Bool),
    s.pes[s.cur]? = some pe → pairOf s.cfg t = some t2 → s.cfg.featD128 = true →
    (pe.el = .el2 ∨ (pe.el = .el3 ∧ el2Enabled s.cfg pe = true)) →
    securityStateAtEL1 s.cfg pe = some ss →
    ipaSpaceOf s.cfg ss (nsBit (operandOf pe t t2)) = some (space, nsRes0) →
    ((readX pe t2).extractLsb' 44 20 ≠ 0 ∨
     (readX pe t).extractLsb' 48 15 ≠ 0 ∨
     (readX pe t).extractLsb' 0 44 ≠ 0 ∨
     (nsRes0 = true ∧ (readX pe t).getLsbD 63 = true) ∨
     (s.cfg.featTTL = false ∧ (readX pe t).extractLsb' 44 4 ≠ 0) ∨
     (s.cfg.featTTL = true ∧ (readX pe t).extractLsb' 46 2 = 0 ∧ (readX pe t).extractLsb' 44 2 ≠ 0)) →
    s.cfg.res0Policy = .refuse →
    exec (.tlbipIpas2le1os t) s = .refused .res0Set ∧
    (s.cfg.featXS = true → exec (.tlbipIpas2le1osnxs t) s = .refused .res0Set)

/-- R30, R92: an execution that reaches the invalidation with FEAT_RME and SCR_EL3.{NSE, NS} = {1, 0} is refused, and so is one in Secure state with neither FEAT_RME nor FEAT_SEL2, whatever the operand. Both are decisions of the spec (log 13, log 14). -/
def Obligations.StatesWithoutAMeaningAreRefused : Prop :=
  ∀ (s : State) (pe : Pe) (t t2 : Nat),
    s.pes[s.cur]? = some pe → pairOf s.cfg t = some t2 → s.cfg.featD128 = true →
    (pe.el = .el2 ∨ (pe.el = .el3 ∧ el2Enabled s.cfg pe = true)) →
    (s.cfg.haveEL3 = true → s.cfg.featRME = true → pe.scrNSE = true → pe.scrNS = false →
      exec (.tlbipIpas2le1os t) s = .refused .securityStateReserved ∧
      (s.cfg.featXS = true → exec (.tlbipIpas2le1osnxs t) s = .refused .securityStateReserved)) ∧
    (s.cfg.featRME = false → s.cfg.featSEL2 = false → securityStateAtEL1 s.cfg pe = some .secure →
      exec (.tlbipIpas2le1os t) s = .refused .noIpaSpace ∧
      (s.cfg.featXS = true → exec (.tlbipIpas2le1osnxs t) s = .refused .noIpaSpace))

/-- R142 P2, P4 and P6 (asked only where `i` takes the invalidation path, log 36) are what an execution needs: under them either variant answers a next state, unless a res0 operand bit is set, the policy refuses it, and the execution is one that reads the operand. -/
def Obligations.LaunchPremisesLeaveOnlyTheRes0Refusal : Prop :=
  ∀ (s : State) (pe : Pe) (i : Instr), s.pes[s.cur]? = some pe →
    secureEl2NeedsSel2 s.cfg pe = true → nseNsLegalFor s.cfg pe i = true →
    el2EnabledAtEl2 s.cfg pe = true →
    (∃ s', exec i s = .next s') ∨
    (exec i s = .refused .res0Set ∧ s.cfg.res0Policy = .refuse ∧ invalidating s.cfg pe = true ∧
      ∃ t2 ss space nsRes0, pairOf s.cfg i.rt = some t2 ∧ securityStateAtEL1 s.cfg pe = some ss ∧
        ipaSpaceOf s.cfg ss (nsBit (operandOf pe i.rt t2)) = some (space, nsRes0) ∧
        res0BitSet s.cfg nsRes0 (operandOf pe i.rt t2) = true)

/-! ### The other outcomes -/

/-- R86, R130: at EL3 with EL2 not enabled both variants only advance the program counter. -/
def Obligations.El3WithoutEl2IsANoOperation : Prop :=
  ∀ (s : State) (pe : Pe) (t t2 : Nat),
    s.pes[s.cur]? = some pe → pairOf s.cfg t = some t2 → s.cfg.featD128 = true →
    pe.el = .el3 → el2Enabled s.cfg pe = false →
    exec (.tlbipIpas2le1os t) s = .next
      { s with pes := s.pes.set s.cur { pe with pc := pe.pc + BitVec.ofNat 64 s.cfg.instrBytes } } ∧
    (s.cfg.featXS = true → exec (.tlbipIpas2le1osnxs t) s = .next
      { s with pes := s.pes.set s.cur { pe with pc := pe.pc + BitVec.ofNat 64 s.cfg.instrBytes } })

/-- R123: at EL1 with EL2 enabled and HCR_EL2.NV 1 both variants raise SystemAccessTrap(EL2, 0x14). That the PE records it, with its program counter at the instruction and all else unchanged, is the model's reading of R126 (log 3), and EL2Enabled() and HCR_EL2.NV are the fields with HaveEL2 and HaveNV (log 15). -/
def Obligations.El1WithNvTrapsToEl2 : Prop :=
  ∀ (s : State) (pe : Pe) (t t2 : Nat),
    s.pes[s.cur]? = some pe → pairOf s.cfg t = some t2 → s.cfg.featD128 = true →
    pe.el = .el1 → s.cfg.haveEL2 = true → pe.el2EnabledField = true →
    s.cfg.haveNV = true → pe.hcrNVField = true →
    exec (.tlbipIpas2le1os t) s = .next
      { s with pes := s.pes.set s.cur { pe with exception := some (.systemAccessTrap .el2 0x14) } } ∧
    (s.cfg.featXS = true → exec (.tlbipIpas2le1osnxs t) s = .next
      { s with pes := s.pes.set s.cur { pe with exception := some (.systemAccessTrap .el2 0x14) } })

/-- R121, R125: each cause of Undefined, in the order of the tests, for both variants. The recording is the model's reading of R126 (log 3). U4 is stated over the fields of EL2Enabled() and HCR_EL2.NV and the parameters HaveEL2 and HaveNV (R29, R27, log 15). -/
def Obligations.UndefinedCausesInOrder : Prop :=
  ∀ (s : State) (pe : Pe) (t : Nat), s.pes[s.cur]? = some pe →
    let undef (c : UndefCause) : State :=
      { s with pes := s.pes.set s.cur { pe with exception := some (.undefined c) } }
    (pairOf s.cfg t = none →
      exec (.tlbipIpas2le1os t) s = .next (undef .u5) ∧ exec (.tlbipIpas2le1osnxs t) s = .next (undef .u5)) ∧
    (∀ t2, pairOf s.cfg t = some t2 →
      (s.cfg.featD128 = false →
        exec (.tlbipIpas2le1os t) s = .next (undef .u1) ∧ exec (.tlbipIpas2le1osnxs t) s = .next (undef .u1)) ∧
      (s.cfg.featD128 = true →
        (s.cfg.featXS = false → exec (.tlbipIpas2le1osnxs t) s = .next (undef .u2)) ∧
        (pe.el = .el0 →
          exec (.tlbipIpas2le1os t) s = .next (undef .u3) ∧
          (s.cfg.featXS = true → exec (.tlbipIpas2le1osnxs t) s = .next (undef .u3))) ∧
        (pe.el = .el1 →
          (s.cfg.haveEL2 = false ∨ pe.el2EnabledField = false ∨ s.cfg.haveNV = false ∨ pe.hcrNVField = false) →
          exec (.tlbipIpas2le1os t) s = .next (undef .u4) ∧
          (s.cfg.featXS = true → exec (.tlbipIpas2le1osnxs t) s = .next (undef .u4)))))

/-- R38: a next state of either variant is one of four: an Undefined recorded, the trap recorded, the program counter advanced, or the program counter advanced with one operation added. The trap is recorded only at EL1 with EL2 enabled and HCR_EL2.NV 1 (R123). That an exception is recorded in the PE is the model's reading of R126 (log 3). -/
def Obligations.ExecHasFourOutcomes : Prop :=
  ∀ (i : Instr) (s s' : State), exec i s = .next s' →
    ∃ pe, s.pes[s.cur]? = some pe ∧
      ((∃ c, s' = { s with pes := s.pes.set s.cur { pe with exception := some (.undefined c) } }) ∨
       (s' = { s with pes := s.pes.set s.cur { pe with exception := some (.systemAccessTrap .el2 0x14) } } ∧
          pe.el = .el1 ∧ el2Enabled s.cfg pe = true ∧ hcrNV s.cfg pe = true) ∨
       (s' = { s with pes := s.pes.set s.cur { pe with pc := pe.pc + BitVec.ofNat 64 s.cfg.instrBytes } } ∧
          pe.el = .el3 ∧ el2Enabled s.cfg pe = false) ∨
       (invalidating s.cfg pe = true ∧ ∃ r a, s' =
          { s with
            pes := s.pes.set s.cur { pe with pc := pe.pc + BitVec.ofNat 64 s.cfg.instrBytes }
            pendingTLBI := s.pendingTLBI ++ [⟨s.nextOp, s.cur, r, a, [], []⟩]
            nextOp := s.nextOp + 1 }))

/-- The frame of both instructions (R102, R38, R25): no general register, system register, Exception level, VMID, TLB, access, parameter or byte of program text changes at any PE, nothing at all changes at a PE other than the executing one, and no pending operation is changed or taken away. The model records an exception in the PE (log 3), and the statement leaves that field, the program counter and the model's counter of operations out. -/
def Obligations.ExecFrame : Prop :=
  ∀ (i : Instr) (s s' : State), exec i s = .next s' →
    s'.cfg = s.cfg ∧ s'.cur = s.cur ∧ s'.agenda = s.agenda ∧ s'.pes.length = s.pes.length ∧
    (∃ added, s'.pendingTLBI = s.pendingTLBI ++ added) ∧
    ∀ (q : Nat) (pe pe' : Pe), s.pes[q]? = some pe → s'.pes[q]? = some pe' →
      (∀ r, readX pe' r = readX pe r) ∧ pe'.el = pe.el ∧ pe'.scrNS = pe.scrNS ∧ pe'.scrNSE = pe.scrNSE ∧
      pe'.hcrNVField = pe.hcrNVField ∧ pe'.vmid = pe.vmid ∧ pe'.el2EnabledField = pe.el2EnabledField ∧
      pe'.tlb = pe.tlb ∧ pe'.accesses = pe.accesses ∧
      pe'.prog.base = pe.prog.base ∧ pe'.prog.len = pe.prog.len ∧
      (∀ a, Memory.read pe'.prog.text a = Memory.read pe.prog.text a) ∧
      (q ≠ s.cur → pe' = pe)

/-- R76, R83: on a path that does not invalidate, the general registers are not read: other contents change nothing of the outcome but themselves. It is a consequence the spec draws from its pseudocode. -/
def Obligations.RegistersUnreadOffTheInvalidationPath : Prop :=
  ∀ (i : Instr) (s : State) (pe : Pe) (x' : Vector XWord 31),
    s.pes[s.cur]? = some pe → invalidating s.cfg pe = false →
    exec i (s.modifyPe s.cur (fun p => { p with x := x' })) =
      mapNext (fun s1 => s1.modifyPe s.cur (fun p => { p with x := x' })) (exec i s)

/-- R104: where an execution issued an operation, executing the same instruction again, with the same operand, issues a second operation with a number of its own. The numbers are the model's (log 8). -/
def Obligations.RepeatedExecutionIssuesTwoOperations : Prop :=
  ∀ (i : Instr) (s s1 : State),
    exec i s = .next s1 → s1.pendingTLBI ≠ s.pendingTLBI →
    ∃ s2 o, exec i s1 = .next s2 ∧
      s1.pendingTLBI = s.pendingTLBI ++ [o] ∧
      s2.pendingTLBI = s.pendingTLBI ++ [o, { o with id := o.id + 1 }]

/-! ### The operand -/

/-- R90, R77: the fields of `x[t2] : x[t]` by the register bits that hold them. That register 31 reads as zero is PRESUMED (log 6). -/
def Obligations.OperandFieldsByRegisterBits : Prop :=
  ∀ (pe : Pe) (t t2 : Nat),
    ipaField (operandOf pe t t2) = (readX pe t2).extractLsb' 0 44 ∧
    res0Hi (operandOf pe t t2) = (readX pe t2).extractLsb' 44 20 ∧
    nsBit (operandOf pe t t2) = (readX pe t).getLsbD 63 ∧
    res0Mid (operandOf pe t t2) = (readX pe t).extractLsb' 48 15 ∧
    ttlField (operandOf pe t t2) = (readX pe t).extractLsb' 44 4 ∧
    res0Lo (operandOf pe t t2) = (readX pe t).extractLsb' 0 44 ∧
    specifiedIpa (operandOf pe t t2) = (readX pe t2).extractLsb' 0 44 ++ 0#12

/-- R22, R75, R103 (a), R88: the default pairing of each register index, 31 with itself, an even one with the next, no other odd one. The form with the operands omitted has Rt 31, and its operand is zero whatever the registers hold. The pairing and register 31 (log 6) and the omitted operands (log 25) are PRESUMED. -/
def Obligations.DefaultPairingAndOmittedOperands : Prop :=
  (∀ t < 32, pairOf Config.launch t =
    if t = 31 then some 31 else if t % 2 = 0 then some (t + 1) else none) ∧
  asmRt none = 31 ∧
  ∀ pe : Pe, readX pe 31 = 0 ∧ operandOf pe 31 31 = 0

/-- R79: bits [55:12] of the specified IPA are op128[107:64], and bits [11:0] are zero. -/
def Obligations.IpaFieldHoldsIpaBits : Prop :=
  ∀ op : Operand,
    (specifiedIpa op).extractLsb' 12 44 = op.extractLsb' 64 44 ∧ (specifiedIpa op).extractLsb' 0 12 = 0

/-- R84: with FEAT_TTL, the reserved TTL encodings, and without FEAT_LPA2 the two that depend on it, say nothing of the level, and none of them is a res0 violation. -/
def Obligations.ReservedTtlEncodingsGiveNoLevel : Prop :=
  ∀ (cfg : Config) (op : Operand) (nsRes0 : Bool), cfg.featTTL = true →
    (ttlField op = 0b1000 ∨ ttlField op = 0b1100 ∨
      (cfg.featLPA2 = false ∧ (ttlField op = 0b0100 ∨ ttlField op = 0b1001))) →
    ttlDecode cfg (ttlField op) = .any ∧
    (res0BitSet cfg nsRes0 op =
      (res0Hi op != 0 || res0Mid op != 0 || res0Lo op != 0 || (nsRes0 && nsBit op)))

/-- R81, R93: the sixteen TTL values with FEAT_TTL implemented, and without FEAT_TTL no level for every value (decision D22, log 21). -/
def Obligations.TtlDecodeTable : Prop :=
  (∀ cfg : Config, cfg.featTTL = false → ∀ ttl, ttlDecode cfg ttl = .any) ∧
  ∀ cfg : Config, cfg.featTTL = true →
    ttlDecode cfg 0b0000 = .any ∧ ttlDecode cfg 0b0001 = .any ∧
    ttlDecode cfg 0b0010 = .any ∧ ttlDecode cfg 0b0011 = .any ∧
    ttlDecode cfg 0b0100 = (if cfg.featLPA2 then .level .g4KB 0 else .any) ∧
    ttlDecode cfg 0b0101 = .level .g4KB 1 ∧
    ttlDecode cfg 0b0110 = .level .g4KB 2 ∧ ttlDecode cfg 0b0111 = .level .g4KB 3 ∧
    ttlDecode cfg 0b1000 = .any ∧
    ttlDecode cfg 0b1001 = (if cfg.featLPA2 then .level .g16KB 1 else .any) ∧
    ttlDecode cfg 0b1010 = .level .g16KB 2 ∧ ttlDecode cfg 0b1011 = .level .g16KB 3 ∧
    ttlDecode cfg 0b1100 = .any ∧ ttlDecode cfg 0b1101 = .level .g64KB 1 ∧
    ttlDecode cfg 0b1110 = .level .g64KB 2 ∧ ttlDecode cfg 0b1111 = .level .g64KB 3

/-- R30, R92: the Security state of EL1, and the IPA space and the standing of the NS bit in each. The rows without EL3 (log 30), at NSE 1 and NS 0 (log 13), for Secure without FEAT_RME and FEAT_SEL2 (log 14) and the reading of "executed in Non-secure state" (log 20) are decisions of the spec. -/
def Obligations.SecurityStateAndIpaSpaceTable : Prop :=
  (∀ (cfg : Config) (pe : Pe), cfg.haveEL3 = false →
    securityStateAtEL1 cfg pe = some (if cfg.ssNoEL3 = .secure then .secure else .nonSecure)) ∧
  (∀ (cfg : Config) (pe : Pe), cfg.haveEL3 = true → cfg.featRME = false →
    securityStateAtEL1 cfg pe = some (if pe.scrNS then .nonSecure else .secure)) ∧
  (∀ (cfg : Config) (pe : Pe), cfg.haveEL3 = true → cfg.featRME = true →
    (pe.scrNSE = false → pe.scrNS = false → securityStateAtEL1 cfg pe = some .secure) ∧
    (pe.scrNSE = false → pe.scrNS = true → securityStateAtEL1 cfg pe = some .nonSecure) ∧
    (pe.scrNSE = true → pe.scrNS = true → securityStateAtEL1 cfg pe = some .realm) ∧
    (pe.scrNSE = true → pe.scrNS = false → securityStateAtEL1 cfg pe = none)) ∧
  (∀ (cfg : Config) (ns : Bool),
    ipaSpaceOf cfg .realm ns = some (.realmIPA, true) ∧
    ipaSpaceOf cfg .nonSecure ns = some (.nonSecureIPA, true) ∧
    (cfg.featRME = true ∨ cfg.featSEL2 = true →
      ipaSpaceOf cfg .secure ns = some (if ns then .nonSecureIPA else .secureIPA, false)) ∧
    (cfg.featRME = false → cfg.featSEL2 = false → ipaSpaceOf cfg .secure ns = none))

/-! ### The match predicate -/

/-- R95: an entry matches a record exactly when it meets all the requirements. The test on 64-bit entries reads the field as written (log 19), and the range test and the entry record are decisions of the spec (log 23). -/
def Obligations.MatchMeetsAllRequirements : Prop :=
  ∀ (cfg : Config) (r : TlbiRecord) (e : TlbEntry), entryMatches cfg r e = true ↔
    (e.stage = .s2only ∧ e.finalLevel = true ∧
     (e.descBits = .bits128 ∨ (e.descBits = .bits64 ∧ r.ttl.extractLsb' 2 2 = 0b00)) ∧
     (r.ss = .secure → e.regime = .secureEL10) ∧
     (r.ss = .nonSecure → e.regime = .nonSecureEL10) ∧
     (r.ss = .realm → e.regime = .realmEL10) ∧
     e.ipaSpace = r.ipaSpace ∧
     e.ipaBase.toNat ≤ r.ipa.toNat ∧ r.ipa.toNat < e.ipaBase.toNat + e.ipaSize ∧
     e.vmid = r.vmid ∧
     (∀ g l, ttlDecode cfg r.ttl = .level g l → e.granule = g ∧ e.level = l))

/-- R95, last sentence: for an entry whose range starts at a multiple of 4096, is a multiple of 4096 long, the range test is the same for every address of the page an operand names. The range test is a decision of the spec (log 23). -/
def Obligations.RangeTestIsTheSameOverThePage : Prop :=
  ∀ (e : TlbEntry) (page a : Ipa),
    e.ipaBase.toNat % 4096 = 0 → e.ipaSize % 4096 = 0 →
    page.toNat % 4096 = 0 → page.toNat ≤ a.toNat → a.toNat < page.toNat + 4096 →
    covers e a = covers e page

/-- R82: an entry whose granule or level differs from what a level-specific TTL says does not match. -/
def Obligations.IncorrectTtlMatchesNothing : Prop :=
  ∀ (cfg : Config) (r : TlbiRecord) (e : TlbEntry) (g : Granule) (l : Int),
    ttlDecode cfg r.ttl = .level g l → (e.granule ≠ g ∨ e.level ≠ l) → entryMatches cfg r e = false

/-- R144: an entry from a 64-bit descriptor matches only where TTL[3:2] as written is `0b00`, so a level-specific TTL removes at most entries from 128-bit descriptors. -/
def Obligations.SixtyFourBitEntriesNeedNoTtl : Prop :=
  ∀ (cfg : Config) (r : TlbiRecord) (e : TlbEntry), entryMatches cfg r e = true →
    (e.descBits = .bits64 → r.ttl.extractLsb' 2 2 = 0b00) ∧
    (∀ g l, ttlDecode cfg r.ttl = .level g l → e.descBits = .bits128)

/-- R34, R98 (a): entries that combine stage 1 and stage 2, and stage 1 entries, never match; so a perform step, which removes exactly the match set (R97, R99, decision D10, log 31), leaves every one of them in the TLB. -/
def Obligations.CombinedEntriesNeverMatch : Prop :=
  ∀ (cfg : Config) (o : PendingOp) (pe : Pe) (e : TlbEntry),
    (e.stage = .s1s2combined ∨ e.stage = .s1only) → e ∈ pe.tlb → e ∈ (performAtPe cfg o pe).tlb

/-! ### Performing and completing -/

/-- R20, R62, R8 `OSDomain` (D25): the Outer Shareable domain of a PE is that PE and the PEs the parameter lists for it, and nothing else. That a domain contains its PE is an inference of the spec, and the parameter as a list of the other members is the model's (log 22). -/
def Obligations.DomainIsTheIssuerAndItsListedPeers : Prop :=
  ∀ (s : State) (p : Nat), p < s.pes.length →
    ∀ q, q ∈ osDomain s p ↔
      q < s.pes.length ∧ (q = p ∨ ∃ peers, s.cfg.osPeers[p]? = some peers ∧ q ∈ peers)

/-- R97: the step "perform o at q". The TLB of `q` loses exactly the entries the operation matches, the accesses that use one of them are marked, `q` joins the PEs it was performed at, the operation keeps the entries it matched there, and nothing else changes. The agenda (log 2), the sets as lists (log 9) and the marks as numbers (log 10) are the model's. -/
def Obligations.PerformRemovesExactlyTheMatchSet : Prop :=
  ∀ (s : State) (o : PendingOp) (q : Nat) (pe : Pe) (rest : List Event),
    s.Inv → s.agenda = .perform o.id q :: rest → o ∈ s.pendingTLBI → s.pes[q]? = some pe →
    q ∈ osDomain s o.issuer → q ∉ o.performedAt →
    ∃ pe' : Pe,
      step s = .next
        { s with
          agenda := rest
          pes := s.pes.set q pe'
          pendingTLBI := s.pendingTLBI.map
            (fun o' => if o' = o then
                { o with
                  performedAt := o.performedAt ++ [q]
                  matched := o.matched ++
                    (pe.tlb.filter (fun e => entryMatches s.cfg o.record e)).map (fun e => (q, e)) }
              else o') } ∧
      pe' = { pe with tlb := pe'.tlb, accesses := pe'.accesses } ∧
      (∀ e, e ∈ pe'.tlb ↔ e ∈ pe.tlb ∧ entryMatches s.cfg o.record e = false) ∧
      pe'.accesses.length = pe.accesses.length ∧
      ∀ (k : Nat) (a a' : Access), pe.accesses[k]? = some a → pe'.accesses[k]? = some a' →
        a'.usedEntries = a.usedEntries ∧ a'.xs = a.xs ∧ a'.complete = a.complete ∧
        ((∃ e ∈ a.usedEntries, e ∈ pe.tlb ∧ entryMatches s.cfg o.record e = true) →
          a'.oldOf = a.oldOf ++ [o.id]) ∧
        ((∀ e ∈ a.usedEntries, e ∈ pe.tlb → entryMatches s.cfg o.record e = false) → a' = a)

/-- R97, R62: performing an operation outside the issuer's domain, or a second time at one PE, is no move of the machine. The perform step is a decision of the spec (log 11). -/
def Obligations.PerformOnlyOnceAndInTheDomain : Prop :=
  ∀ (s s' : State) (id q : Nat), perform id q s = .next s' →
    ∃ o ∈ s.pendingTLBI, o.id = id ∧ q ∈ osDomain s o.issuer ∧ q ∉ o.performedAt

/-- R59: an `AllAttr` operation can complete exactly when it was performed at every PE of the domain and every access of those PEs whose used entries hold an entry the operation matched there, whenever it came to use it, is complete. Completing takes it, and nothing else, out of the pending operations. That the operation keeps the entries it matched (PerformRemovesExactlyTheMatchSet) is the model's (log 10). -/
def Obligations.AllAttrCompletionCondition : Prop :=
  ∀ (s : State) (o : PendingOp) (rest : List Event),
    s.Inv → s.agenda = .complete o.id :: rest → o ∈ s.pendingTLBI → o.attr = .allAttr →
    ((∃ s', step s = .next s') ↔
      ((∀ q ∈ osDomain s o.issuer, q ∈ o.performedAt) ∧
       ∀ q ∈ osDomain s o.issuer, ∀ pe, s.pes[q]? = some pe →
        ∀ a ∈ pe.accesses, (∃ e ∈ a.usedEntries, (q, e) ∈ o.matched) → a.complete = true)) ∧
    ∀ s', step s = .next s' →
      s' = { s with agenda := rest, pendingTLBI := s.pendingTLBI.filter (fun o' => o' ≠ o) }

/-- R60: as R59, but an `ExcludeXS` operation waits only for the accesses with XS attribute 0. That the operation keeps the entries it matched is the model's (log 10). -/
def Obligations.ExcludeXsCompletionCondition : Prop :=
  ∀ (s : State) (o : PendingOp) (rest : List Event),
    s.Inv → s.agenda = .complete o.id :: rest → o ∈ s.pendingTLBI → o.attr = .excludeXS →
    ((∃ s', step s = .next s') ↔
      ((∀ q ∈ osDomain s o.issuer, q ∈ o.performedAt) ∧
       ∀ q ∈ osDomain s o.issuer, ∀ pe, s.pes[q]? = some pe →
        ∀ a ∈ pe.accesses, (∃ e ∈ a.usedEntries, (q, e) ∈ o.matched) → a.xs = false → a.complete = true)) ∧
    ∀ s', step s = .next s' →
      s' = { s with agenda := rest, pendingTLBI := s.pendingTLBI.filter (fun o' => o' ≠ o) }

/-- R101: what lets the base variant complete lets the nXS variant complete, and where no access of the domain has XS attribute 1 the two conditions are one. Which accesses use old information is the reading of log 10. -/
def Obligations.NxsCompletesWheneverBaseWould : Prop :=
  ∀ (s : State) (o : PendingOp),
    (completeEnabled s { o with attr := .allAttr } = true →
      completeEnabled s { o with attr := .excludeXS } = true) ∧
    ((∀ q ∈ osDomain s o.issuer, ∀ pe, s.pes[q]? = some pe → ∀ a ∈ pe.accesses, a.xs = false) →
      completeEnabled s { o with attr := .allAttr } = completeEnabled s { o with attr := .excludeXS })

/-- R67 (decision D10): the environment can add any entry record to any PE's TLB and take any entry away, and neither move changes anything else. -/
def Obligations.EnvironmentGainsAndLosesEntries : Prop :=
  ∀ (s : State) (q : Nat) (pe : Pe) (e : TlbEntry) (rest : List Event), s.pes[q]? = some pe →
    (s.agenda = .gain q e :: rest → e.wf s.cfg = true →
      ∃ tlb', step s = .next { s with agenda := rest, pes := s.pes.set q { pe with tlb := tlb' } } ∧
        ∀ e', e' ∈ tlb' ↔ e' ∈ pe.tlb ∨ e' = e) ∧
    (s.agenda = .lose q e :: rest →
      ∃ tlb', step s = .next { s with agenda := rest, pes := s.pes.set q { pe with tlb := tlb' } } ∧
        ∀ e', e' ∈ tlb' ↔ e' ∈ pe.tlb ∧ e' ≠ e)

/-- R36 (decision D11, log 11): the moves on accesses, each with its full next state. An access begins incomplete and unmarked; an incomplete one comes to use one more entry, or completes; a complete one leaves. No move takes an incomplete access away, and none changes a complete one in place. -/
def Obligations.EnvironmentMovesOnAccesses : Prop :=
  ∀ (s : State) (q : Nat) (pe : Pe) (rest : List Event), s.pes[q]? = some pe →
    (∀ used xs, s.agenda = .accessBegin q used xs :: rest →
      step s = .next { s with
        agenda := rest
        pes := s.pes.set q { pe with accesses := pe.accesses ++ [⟨used, xs, false, []⟩] } }) ∧
    (∀ k a e, s.agenda = .accessUses q k e :: rest → pe.accesses[k]? = some a →
      (a.complete = false → step s = .next { s with
        agenda := rest
        pes := s.pes.set q { pe with
          accesses := pe.accesses.set k
            { a with usedEntries := if e ∈ a.usedEntries then a.usedEntries else a.usedEntries ++ [e] } } }) ∧
      (a.complete = true → ∀ s', step s ≠ .next s')) ∧
    (∀ k a, s.agenda = .accessComplete q k :: rest → pe.accesses[k]? = some a →
      (a.complete = false → step s = .next { s with
        agenda := rest
        pes := s.pes.set q { pe with accesses := pe.accesses.set k { a with complete := true } } }) ∧
      (a.complete = true → ∀ s', step s ≠ .next s')) ∧
    (∀ k a, s.agenda = .accessRetire q k :: rest → pe.accesses[k]? = some a →
      (a.complete = true → step s = .next { s with
        agenda := rest
        pes := s.pes.set q { pe with accesses := pe.accesses.eraseIdx k } }) ∧
      (a.complete = false → ∀ s', step s ≠ .next s'))

/-! ### Rules of the whole machine -/

/-- R126 (log 3): a PE that has recorded an exception takes no further step, whether the agenda names it or the agenda is empty and it is the executing PE. -/
def Obligations.FaultedPeTakesNoStep : Prop :=
  ∀ (s : State) (pe : Pe) (e : Exc) (rest : List Event) (p : Nat),
    s.pes[p]? = some pe → pe.exception = some e →
    (s.agenda = .run p :: rest → step s = .fault (.exception e)) ∧
    (s.agenda = [] → s.cur = p → step s = .fault (.exception e))

/-- R126, R152 (log 3): whatever move the machine makes, a PE that has recorded an exception keeps it, with its program counter at the instruction, and the state is not final. -/
def Obligations.ExceptionIsTerminal : Prop :=
  ∀ (s s' : State) (q : Nat) (pe : Pe) (e : Exc),
    s.pes[q]? = some pe → pe.exception = some e → step s = .next s' →
    s'.isFinal = false ∧
    ∃ pe', s'.pes[q]? = some pe' ∧ pe'.exception = some e ∧ pe'.pc = pe.pc

/-- R38, R130, R8, R64: no move of any agent changes a parameter, a program text, or a general register, system register, Exception level, VMID or EL2 enable of any PE. The parameters in the state are the model's (log 1). -/
def Obligations.NoStepWritesRegistersOrParameters : Prop :=
  ∀ s s' : State, step s = .next s' →
    s'.cfg = s.cfg ∧ s'.pes.length = s.pes.length ∧
    ∀ (q : Nat) (pe pe' : Pe), s.pes[q]? = some pe → s'.pes[q]? = some pe' →
      pe'.x = pe.x ∧ pe'.el = pe.el ∧ pe'.scrNS = pe.scrNS ∧ pe'.scrNSE = pe.scrNSE ∧
      pe'.hcrNVField = pe.hcrNVField ∧ pe'.vmid = pe.vmid ∧
      pe'.el2EnabledField = pe.el2EnabledField ∧ pe'.prog = pe.prog

/-- R97, R67: a TLB changes only by a perform step at that PE, or by the environment's gain and lose steps at that PE; executing an instruction changes none. The agenda is the model's (log 2). -/
def Obligations.TlbChangesOnlyByPerformGainOrLose : Prop :=
  ∀ (s s' : State) (q : Nat) (pe pe' : Pe), step s = .next s' →
    s.pes[q]? = some pe → s'.pes[q]? = some pe' → pe'.tlb ≠ pe.tlb →
    ∃ rest, (∃ id, s.agenda = .perform id q :: rest) ∨
      (∃ e, s.agenda = .gain q e :: rest) ∨ (∃ e, s.agenda = .lose q e :: rest)

/-- R102, R131: a pending operation's record, attribute and issuer are fixed when it is issued. The numbers are the model's (log 8). -/
def Obligations.PendingRecordIsFixedAtIssue : Prop :=
  ∀ (s s' : State) (o o' : PendingOp), s.Inv → step s = .next s' →
    o ∈ s.pendingTLBI → o' ∈ s'.pendingTLBI → o'.id = o.id →
    o'.record = o.record ∧ o'.attr = o.attr ∧ o'.issuer = o.issuer

/-- R97, R59, R60: an operation leaves the pending operations only by its complete step, once it was performed at every PE of the domain; it is performed somewhere, and gains entries it matched there, only by a perform step there, and it loses none of these entries. The agenda (log 2) and the numbers (log 8) are the model's. -/
def Obligations.OperationsEndOnlyByCompletion : Prop :=
  ∀ (s s' : State) (o : PendingOp), s.Inv → step s = .next s' → o ∈ s.pendingTLBI →
    (∃ o' ∈ s'.pendingTLBI, o'.id = o.id ∧
      (∀ q, q ∈ o'.performedAt → q ∈ o.performedAt ∨ ∃ rest, s.agenda = .perform o.id q :: rest) ∧
      (∀ x ∈ o.matched, x ∈ o'.matched) ∧
      ∀ x ∈ o'.matched, x ∈ o.matched ∨ ∃ rest, s.agenda = .perform o.id x.1 :: rest) ∨
    ((∃ rest, s.agenda = .complete o.id :: rest) ∧
      (∀ q ∈ osDomain s o.issuer, q ∈ o.performedAt) ∧ ∀ o' ∈ s'.pendingTLBI, o'.id ≠ o.id)

/-- R66, the maintenance promise, over every run: where an operation that was pending is gone after `k` steps, then for each PE of its issuer's domain where it had not been performed, some step of the run performed it there, and right after that step the PE's TLB held no entry the operation matches. The agenda (log 2) and the numbers (log 8) are the model's. -/
def Obligations.CompletedOperationWasPerformedEverywhere : Prop :=
  ∀ (k : Nat) (s s' : State) (o : PendingOp), s.Inv → o ∈ s.pendingTLBI →
    core.run k s = .next s' → (∀ o' ∈ s'.pendingTLBI, o'.id ≠ o.id) →
    ∀ q ∈ osDomain s o.issuer, q ∉ o.performedAt →
      ∃ (j : Nat) (sj sj' : State) (rest : List Event),
        j < k ∧ core.run j s = .next sj ∧ sj.agenda = .perform o.id q :: rest ∧
        core.run (j + 1) s = .next sj' ∧
        ∀ pe, sj'.pes[q]? = some pe → ∀ e ∈ pe.tlb, entryMatches s.cfg o.record e = false

/-- R97, R150: an operation performed nowhere yet can be carried through. The run that performs it at each PE of the domain in turn and then completes it ends in a state without the operation, in which each of those TLBs is what it was less the match set. It holds where no access is in flight at those PEs; that such a run is taken is no rule of the model (log 26). -/
def Obligations.PerformingEverywhereCompletesTheOperation : Prop :=
  ∀ (s : State) (o : PendingOp), s.Inv → o ∈ s.pendingTLBI → o.performedAt = [] →
    (∀ q ∈ osDomain s o.issuer, ∀ pe, s.pes[q]? = some pe → pe.accesses = []) →
    ∃ s', core.run ((osDomain s o.issuer).length + 1)
        { s with agenda := (osDomain s o.issuer).map (.perform o.id) ++ [.complete o.id] } = .next s' ∧
      s'.pendingTLBI = s.pendingTLBI.filter (fun o' => o' ≠ o) ∧
      ∀ (q : Nat) (pe pe' : Pe), s.pes[q]? = some pe → s'.pes[q]? = some pe' →
        pe'.tlb = if q ∈ osDomain s o.issuer
          then pe.tlb.filter (fun e => !entryMatches s.cfg o.record e) else pe.tlb

/-- R152: in a final state no PE can execute: the step of each is the fault `exited`, where its program counter is 4-aligned. That the step is a fault is the model's choice (log 28). -/
def Obligations.FinalStateHasNoInstructionLeft : Prop :=
  ∀ (s : State) (p : Nat) (rest : List Event), s.isFinal = true →
    (∀ pe ∈ s.pes, pe.pc.toNat % 4 = 0) → p < s.pes.length → s.agenda = .run p :: rest →
    step s = .fault .exited

/-! ### Invariants -/

/-- Every step keeps the invariant of the machine: canonical program texts, TLBs that are sets of entry records, operations with numbers of their own, performed only in their issuer's domain, with a page-aligned IPA, a VMID of vmidWidth bits and an IPA space their Security state can target, that keep only entries they match, and accesses marked only by operations that matched an entry they use. Sets as lists without repeats (log 9) and numbers of operations (log 8) are the model's. -/
def Obligations.EveryStepKeepsTheMachineInvariant : Prop :=
  ∀ s s' : State, s.Inv → step s = .next s' → s'.Inv

/-- Every step keeps each program counter at an instruction of its program or just past the last one (R152: no other value of `pc` arises). The program as a base, a length and bytes is the model's (log 4). -/
def Obligations.EveryStepKeepsProgramCountersInPlace : Prop :=
  ∀ s s' : State, s.PcInv → step s = .next s' → s'.PcInv

/-- R152: from a launch state, where each PE is at the first instruction of its 4-aligned program (R142 P9), no run brings a program counter to any value but the address of an instruction or the one just past the last. `instrBytes` is 4, the spec's value (log 35), and no program reaches the top of the address space. -/
def Obligations.LaunchedRunsKeepProgramCountersInPlace : Prop :=
  ∀ (k : Nat) (s s' : State), s.launch = true → s.cfg.instrBytes = 4 →
    (∀ pe ∈ s.pes, pe.prog.base.toNat + 4 * pe.prog.len < 2 ^ 64) →
    core.run k s = .next s' → s'.PcInv

/-- R142, what premises P2, P4 and P6 are for: in no run from a launch state is an instruction refused for want of a Security state (R30) or of an IPA space (R92). P6 is asked of each PE's first instruction only (log 36). -/
def Obligations.LaunchedRunsNeverLackASecurityStateOrIpaSpace : Prop :=
  ∀ (k : Nat) (s s' : State), s.launch = true → core.run k s = .next s' →
    step s' ≠ .refused .securityStateReserved ∧ step s' ≠ .refused .noIpaSpace

/-- The state after reset meets both invariants and the launch premises of R142. Its values are the model's choice (log 1, log 4, log 7); the spec states none (R39). -/
def Obligations.ResetMeetsInvariantsAndLaunchPremises : Prop :=
  State.reset.Inv ∧ State.reset.PcInv ∧ State.reset.launch = true

/-- What reset leaves: nothing pending (R39, the launch premise P8), and the values log 7 names: EL3, EL2 not enabled, zero in every register, empty TLBs, no exception. -/
def Obligations.ResetValues : Prop :=
  State.reset.pendingTLBI = [] ∧
  ∀ pe ∈ State.reset.pes, pe.el = .el3 ∧ pe.el2EnabledField = false ∧ pe.pc = 0 ∧ (∀ r, readX pe r = 0) ∧
    pe.scrNS = false ∧ pe.scrNSE = false ∧ pe.hcrNVField = false ∧ pe.vmid = 0 ∧
    pe.tlb = [] ∧ pe.accesses = [] ∧ pe.exception = none
end

