-- ==== Sys2Proof/Laws/State.lean ====
section
/-! SUPPORT. One lemma per field per update of the state. -/

namespace Sys2Proof.Machine

section ModifyPe

variable (s : State) (p : Nat) (f : Pe → Pe)

@[simp] theorem State.modifyPe_cfg : (s.modifyPe p f).cfg = s.cfg := rfl
@[simp] theorem State.modifyPe_pendingTLBI : (s.modifyPe p f).pendingTLBI = s.pendingTLBI := rfl
@[simp] theorem State.modifyPe_nextOp : (s.modifyPe p f).nextOp = s.nextOp := rfl
@[simp] theorem State.modifyPe_cur : (s.modifyPe p f).cur = s.cur := rfl
@[simp] theorem State.modifyPe_agenda : (s.modifyPe p f).agenda = s.agenda := rfl
@[simp] theorem State.modifyPe_pes : (s.modifyPe p f).pes = s.pes.modify p f := rfl

theorem State.modifyPe_length : (s.modifyPe p f).pes.length = s.pes.length := by simp

/-- The PE changed. -/
theorem State.modifyPe_get_same {pe : Pe} (h : s.pes[p]? = some pe) :
    (s.modifyPe p f).pes[p]? = some (f pe) := by simp [h]

/-- Every other PE. -/
theorem State.modifyPe_get_other {q : Nat} (h : q ≠ p) : (s.modifyPe p f).pes[q]? = s.pes[q]? := by
  simp [h.symm]

/-- A change of a PE, written as the list of PEs with one replaced. -/
theorem State.modifyPe_eq_set {pe : Pe} (h : s.pes[p]? = some pe) :
    s.modifyPe p f = { s with pes := s.pes.set p (f pe) } := by
  simp [State.modifyPe, List.modify_eq_set_getElem?, h]

/-- Every PE after the change is one before it, or the PE changed. -/
theorem State.mem_modifyPe {pe' : Pe} (h : pe' ∈ (s.modifyPe p f).pes) :
    pe' ∈ s.pes ∨ ∃ pe, s.pes[p]? = some pe ∧ pe' = f pe := by
  obtain ⟨q, hq⟩ := List.mem_iff_getElem?.1 h
  by_cases hqp : q = p
  · subst hqp
    cases hpe : s.pes[q]? with
    | none => simp [hpe] at hq
    | some pe =>
      rw [State.modifyPe_get_same s q f hpe] at hq
      exact .inr ⟨pe, rfl, (Option.some.inj hq).symm⟩
  · rw [State.modifyPe_get_other s p f hqp] at hq
    exact .inl (List.mem_iff_getElem?.2 ⟨q, hq⟩)

end ModifyPe

section AddPending

variable (r : TlbiRecord) (a : Attr) (s : State)

@[simp] theorem addPending_cfg : (addPending r a s).cfg = s.cfg := rfl
@[simp] theorem addPending_pes : (addPending r a s).pes = s.pes := rfl
@[simp] theorem addPending_cur : (addPending r a s).cur = s.cur := rfl
@[simp] theorem addPending_agenda : (addPending r a s).agenda = s.agenda := rfl
@[simp] theorem addPending_nextOp : (addPending r a s).nextOp = s.nextOp + 1 := rfl
@[simp] theorem addPending_pendingTLBI :
    (addPending r a s).pendingTLBI = s.pendingTLBI ++ [⟨s.nextOp, s.cur, r, a, [], []⟩] := rfl

end AddPending

section AdvancePc

variable (s : State)

@[simp] theorem advancePc_cfg : (advancePc s).cfg = s.cfg := rfl
@[simp] theorem advancePc_cur : (advancePc s).cur = s.cur := rfl
@[simp] theorem advancePc_agenda : (advancePc s).agenda = s.agenda := rfl
@[simp] theorem advancePc_nextOp : (advancePc s).nextOp = s.nextOp := rfl
@[simp] theorem advancePc_pendingTLBI : (advancePc s).pendingTLBI = s.pendingTLBI := rfl

/-- Advancing the program counter, as the list of PEs with one replaced. -/
theorem advancePc_eq {pe : Pe} (h : s.pes[s.cur]? = some pe) :
    advancePc s =
      { s with pes := s.pes.set s.cur { pe with pc := pe.pc + BitVec.ofNat 64 s.cfg.instrBytes } } :=
  State.modifyPe_eq_set s s.cur _ h

end AdvancePc

section TakeException

variable (e : Exc) (s : State)

@[simp] theorem takeException_cfg : (takeException e s).cfg = s.cfg := rfl
@[simp] theorem takeException_cur : (takeException e s).cur = s.cur := rfl
@[simp] theorem takeException_agenda : (takeException e s).agenda = s.agenda := rfl
@[simp] theorem takeException_nextOp : (takeException e s).nextOp = s.nextOp := rfl
@[simp] theorem takeException_pendingTLBI : (takeException e s).pendingTLBI = s.pendingTLBI := rfl

/-- Taking an exception, as the list of PEs with one replaced. -/
theorem takeException_eq {pe : Pe} (h : s.pes[s.cur]? = some pe) :
    takeException e s = { s with pes := s.pes.set s.cur { pe with exception := some e } } :=
  State.modifyPe_eq_set s s.cur _ h

end TakeException

section ReadX

variable (pe : Pe)

@[simp] theorem readX_31 : readX pe 31 = 0 := rfl

theorem readX_of_lt {i : Nat} (h : i < 31) : readX pe i = pe.x[i] := by simp [readX, h]

@[simp] theorem readX_pc (v : XWord) (i : Nat) : readX { pe with pc := v } i = readX pe i := rfl

@[simp] theorem readX_exception (e : Option Exc) (i : Nat) : readX { pe with exception := e } i = readX pe i := rfl

end ReadX

end Sys2Proof.Machine
end

