-- ==== Sys2Proof/Laws/Exec.lean ====
section
/-! SUPPORT. What the shared operations and the instructions can do, said once. -/

namespace Sys2Proof.Machine

@[simp] theorem andThen_next {α β : Type} (a : α) (k : α → Host.Outcome β Fault Refusal) :
    andThen (.next a) k = k a := rfl
@[simp] theorem andThen_fault {α β : Type} (f : Fault) (k : α → Host.Outcome β Fault Refusal) :
    andThen (.fault f) k = .fault f := rfl
@[simp] theorem andThen_refused {α β : Type} (r : Refusal) (k : α → Host.Outcome β Fault Refusal) :
    andThen (.refused r) k = .refused r := rfl

/-- A sequence answers a next state only through one of its first part. -/
theorem andThen_eq_next {α β : Type} {o : Host.Outcome α Fault Refusal}
    {k : α → Host.Outcome β Fault Refusal} {b : β} (h : andThen o k = .next b) :
    ∃ a, o = .next a ∧ k a = .next b := by
  cases o with
  | next a => exact ⟨a, rfl, h⟩
  | fault f => cases h
  | refused r => cases h

/-- Work on the executing PE, where there is one. -/
theorem withCur_of {s : State} {pe : Pe} (h : s.pes[s.cur]? = some pe)
    (k : Pe → Host.Outcome State Fault Refusal) : withCur s k = k pe := by
  simp [withCur, h]

theorem withCur_eq_next {s s' : State} {k : Pe → Host.Outcome State Fault Refusal}
    (h : withCur s k = .next s') : ∃ pe, s.pes[s.cur]? = some pe ∧ k pe = .next s' := by
  unfold withCur at h
  split at h
  · cases h
  · exact ⟨_, ‹_›, h⟩

/-- What the invalidation procedure does where it answers a next state (R96). -/
theorem tlbipIpas2_eq_next {ss : SecurityState} {v : Nat} {a : Attr} {op : Operand} {s s' : State}
    (h : tlbipIpas2 ss v a op s = .next s') :
    ∃ space nsRes0, ipaSpaceOf s.cfg ss (nsBit op) = some (space, nsRes0) ∧
      (res0BitSet s.cfg nsRes0 op = false ∨ s.cfg.res0Policy = .ignore) ∧
      s' = addPending ⟨ss, specifiedIpa op, space, v, liveTtl s.cfg (ttlField op)⟩ a s := by
  unfold tlbipIpas2 at h
  split at h
  · cases h
  · rename_i space nsRes0 hsp
    split at h
    · cases h
    · rename_i hres
      refine ⟨space, nsRes0, hsp, ?_, (Host.Outcome.next.inj h).symm⟩
      cases hp : s.cfg.res0Policy <;> simp_all

/-- What the invalidation arm does where it answers a next state (R100, R101). -/
theorem invalidate_eq_next {a : Attr} {t t2 : Nat} {pe : Pe} {s s' : State}
    (h : invalidate a t t2 pe s = .next s') :
    ∃ ss space nsRes0, securityStateAtEL1 s.cfg pe = some ss ∧
      ipaSpaceOf s.cfg ss (nsBit (operandOf pe t t2)) = some (space, nsRes0) ∧
      s' = advancePc (addPending ⟨ss, specifiedIpa (operandOf pe t t2), space, currentVmid s.cfg pe,
        liveTtl s.cfg (ttlField (operandOf pe t t2))⟩ a s) := by
  unfold invalidate at h
  split at h
  · cases h
  · rename_i ss hss
    obtain ⟨s1, h1, h2⟩ := andThen_eq_next h
    obtain ⟨space, nsRes0, hsp, -, rfl⟩ := tlbipIpas2_eq_next h1
    exact ⟨ss, space, nsRes0, hss, hsp, (Host.Outcome.next.inj h2).symm⟩

/-- The invalidation arm where nothing stops it. -/
theorem invalidate_next {a : Attr} {t t2 : Nat} {pe : Pe} {s : State} {ss : SecurityState}
    {space : IpaSpace} {nsRes0 : Bool} (hss : securityStateAtEL1 s.cfg pe = some ss)
    (hsp : ipaSpaceOf s.cfg ss (nsBit (operandOf pe t t2)) = some (space, nsRes0))
    (hres : res0BitSet s.cfg nsRes0 (operandOf pe t t2) = false ∨ s.cfg.res0Policy = .ignore) :
    invalidate a t t2 pe s = .next (advancePc (addPending ⟨ss, specifiedIpa (operandOf pe t t2), space,
      currentVmid s.cfg pe, liveTtl s.cfg (ttlField (operandOf pe t t2))⟩ a s)) := by
  rcases hres with h | h <;> simp [invalidate, hss, tlbipIpas2, hsp, h]

/-- What a next state of either instruction is: an exception recorded, the program counter advanced, or the program counter advanced with one operation added (R38). -/
theorem exec_cases {i : Instr} {s s' : State} (h : exec i s = .next s') :
    ∃ pe, s.pes[s.cur]? = some pe ∧
      ((∃ c, s' = takeException (.undefined c) s) ∨
       (s' = takeException (.systemAccessTrap .el2 0x14) s ∧
         pe.el = .el1 ∧ el2Enabled s.cfg pe = true ∧ hcrNV s.cfg pe = true) ∨
       (s' = advancePc s ∧ pe.el = .el3 ∧ el2Enabled s.cfg pe = false) ∨
       ∃ a t2, s.cfg.featD128 = true ∧ (pe.el = .el2 ∨ (pe.el = .el3 ∧ el2Enabled s.cfg pe = true)) ∧
         pairOf s.cfg i.rt = some t2 ∧ invalidate a i.rt t2 pe s = .next s') := by
  have level : ∀ {a : Attr} {t t2 : Nat} {pe : Pe}, s.cfg.featD128 = true → pairOf s.cfg t = some t2 →
      byExceptionLevel a t t2 pe s = .next s' →
      (∃ c, s' = takeException (.undefined c) s) ∨
       (s' = takeException (.systemAccessTrap .el2 0x14) s ∧
         pe.el = .el1 ∧ el2Enabled s.cfg pe = true ∧ hcrNV s.cfg pe = true) ∨
       (s' = advancePc s ∧ pe.el = .el3 ∧ el2Enabled s.cfg pe = false) ∨
       ∃ a t2, s.cfg.featD128 = true ∧ (pe.el = .el2 ∨ (pe.el = .el3 ∧ el2Enabled s.cfg pe = true)) ∧
         pairOf s.cfg t = some t2 ∧ invalidate a t t2 pe s = .next s' := by
    intro a t t2 pe hd ht hl
    unfold byExceptionLevel at hl
    split at hl
    · exact .inl ⟨.u3, (Host.Outcome.next.inj hl).symm⟩
    · rename_i hel
      split at hl
      · rename_i hc
        rw [Bool.and_eq_true] at hc
        exact .inr (.inl ⟨(Host.Outcome.next.inj hl).symm, hel, hc.1, hc.2⟩)
      · exact .inl ⟨.u4, (Host.Outcome.next.inj hl).symm⟩
    · rename_i hel
      exact .inr (.inr (.inr ⟨a, t2, hd, .inl hel, ht, hl⟩))
    · rename_i hel
      split at hl
      · rename_i hc
        exact .inr (.inr (.inl ⟨(Host.Outcome.next.inj hl).symm, hel, by simpa using hc⟩))
      · rename_i hc
        exact .inr (.inr (.inr ⟨a, t2, hd, .inr ⟨hel, by simpa using hc⟩, ht, hl⟩))
  cases i with
  | tlbipIpas2le1os t =>
    obtain ⟨pe, hpe, hk⟩ := withCur_eq_next h
    refine ⟨pe, hpe, ?_⟩
    split at hk
    · exact .inl ⟨.u5, (Host.Outcome.next.inj hk).symm⟩
    · rename_i ht
      split at hk
      · exact .inl ⟨.u1, (Host.Outcome.next.inj hk).symm⟩
      · rename_i hd
        exact level (by simpa using hd) ht hk
  | tlbipIpas2le1osnxs t =>
    obtain ⟨pe, hpe, hk⟩ := withCur_eq_next h
    refine ⟨pe, hpe, ?_⟩
    split at hk
    · exact .inl ⟨.u5, (Host.Outcome.next.inj hk).symm⟩
    · rename_i ht
      split at hk
      · exact .inl ⟨.u1, (Host.Outcome.next.inj hk).symm⟩
      · rename_i hd
        split at hk
        · exact .inl ⟨.u2, (Host.Outcome.next.inj hk).symm⟩
        · exact level (by simpa using hd) ht hk

end Sys2Proof.Machine
end

