-- ==== Sys2Proof/Laws/Fetch.lean ====
section
/-! SUPPORT. What fetching answers, and the executing PE's step from it. -/

namespace Sys2Proof.Machine

/-- A program counter in the program is not just past it. -/
theorem exitedPc_of_inProgram {cfg : Config} {pe : Pe} (h : inProgram cfg pe = true) :
    exitedPc cfg pe = false := by
  simp only [inProgram, Bool.and_eq_true, decide_eq_true_eq] at h
  simp only [exitedPc, decide_eq_false_iff_not]
  omega

/-- A fetch in place is the decoding of the four bytes there. -/
theorem fetch_of {cfg : Config} {pe : Pe} {b0 b1 b2 b3 : Byte} (hal : pe.pc.toNat % 4 = 0)
    (hin : inProgram cfg pe = true) (htop : pe.pc.toNat + cfg.instrBytes < 2 ^ 64)
    (hb : fetchBytes pe.prog.text pe.pc.toNat = some (b0, b1, b2, b3)) :
    fetch cfg pe = decodeFetched b0 b1 b2 b3 := by
  simp only [fetch, hal, exitedPc_of_inProgram hin, hin, if_neg (Nat.not_le.2 htop), hb]
  simp

theorem fetchBytes_of {m : List Host.Cell} {a : Nat} {b0 b1 b2 b3 : Byte}
    (h0 : Memory.read m a = some b0) (h1 : Memory.read m (a + 1) = some b1)
    (h2 : Memory.read m (a + 2) = some b2) (h3 : Memory.read m (a + 3) = some b3) :
    fetchBytes m a = some (b0, b1, b2, b3) := by
  simp [fetchBytes, h0, h1, h2, h3]

/-- The step of a PE without an exception is its fetch and then the instruction. -/
theorem runCurrent_of {s : State} {pe : Pe} (hpe : s.pes[s.cur]? = some pe)
    (hex : pe.exception = none) :
    runCurrent s = andThen (fetch s.cfg pe) (fun i => exec i s) := by
  simp [runCurrent, withCur, hpe, hex]

/-- Why a fetch is refused: one of five names, all its own. -/
theorem fetch_eq_refused {cfg : Config} {pe : Pe} {r : Refusal} (h : fetch cfg pe = .refused r) :
    r = .pcMisaligned ∨ r = .pcOutsideProgram ∨ r = .pcWraps ∨ r = .noText ∨ r = .notInThisSpec := by
  unfold fetch at h
  split at h
  · cases h; simp
  · split at h
    · cases h
    · split at h
      · cases h; simp
      · split at h
        · cases h; simp
        · split at h
          · cases h; simp
          · unfold decodeFetched at h
            split at h <;> cases h
            simp

end Sys2Proof.Machine
end

