-- ==== Sys2Proof/Laws/Memory.lean ====
section
/-! SUPPORT. The laws of program text: a read after a write, and the canonical form. -/

namespace Sys2Proof.Machine

@[simp] theorem Memory.read_write_same (m : List Host.Cell) (a : Nat) (b : Byte) :
    Memory.read (Memory.write m a b) a = some b := by
  induction m with
  | nil => simp [Memory.write, Memory.read]
  | cons c rest ih =>
    unfold Memory.write
    split
    · simp [Memory.read]
    · split
      · simp [Memory.read]
      · rename_i _ hne
        simp [Memory.read, hne, ih]

theorem Memory.read_write_other (m : List Host.Cell) (a a' : Nat) (b : Byte) (h : a' ≠ a) :
    Memory.read (Memory.write m a b) a' = Memory.read m a' := by
  induction m with
  | nil => simp [Memory.write, Memory.read, h.symm]
  | cons c rest ih =>
    unfold Memory.write
    split
    · simp [Memory.read, h.symm]
    · split
      · rename_i _ hc
        simp [Memory.read, hc, h.symm]
      · simp [Memory.read, ih]

/-- A write lists the address written and the addresses listed before. -/
theorem Memory.mem_write {m : List Host.Cell} {a : Nat} {b : Byte} {d : Host.Cell}
    (h : d ∈ Memory.write m a b) : d = (a, b) ∨ d ∈ m := by
  induction m with
  | nil => simpa [Memory.write] using h
  | cons c rest ih =>
    unfold Memory.write at h
    split at h
    · simpa using h
    · split at h
      · rcases List.mem_cons.1 h with h | h
        · exact .inl h
        · exact .inr (List.mem_cons_of_mem _ h)
      · rcases List.mem_cons.1 h with h | h
        · exact .inr (h ▸ List.mem_cons_self)
        · exact (ih h).imp_right (List.mem_cons_of_mem _)

theorem Memory.write_rising {m : List Host.Cell} (a : Nat) (b : Byte)
    (h : m.Pairwise (fun c d => c.1 < d.1)) :
    (Memory.write m a b).Pairwise (fun c d => c.1 < d.1) := by
  induction m with
  | nil => simp [Memory.write]
  | cons c rest ih =>
    obtain ⟨hc, hr⟩ := List.pairwise_cons.1 h
    unfold Memory.write
    split
    · rename_i hlt
      refine List.pairwise_cons.2 ⟨fun d hd => ?_, h⟩
      rcases List.mem_cons.1 hd with rfl | hd
      · exact hlt
      · exact hlt.trans (hc d hd)
    · split
      · rename_i _ heq
        exact List.pairwise_cons.2 ⟨fun d hd => heq ▸ hc d hd, hr⟩
      · rename_i hge hne
        refine List.pairwise_cons.2 ⟨fun d hd => ?_, ih hr⟩
        rcases Memory.mem_write hd with rfl | hd
        · simp only; omega
        · exact hc d hd

/-- A write at a 64-bit address keeps the canonical form. -/
theorem Memory.write_wf {m : List Host.Cell} {a : Nat} (b : Byte) (h : Memory.wf m)
    (ha : a < 2 ^ 64) : Memory.wf (Memory.write m a b) :=
  ⟨Memory.write_rising a b h.1, fun d hd => by
    rcases Memory.mem_write hd with rfl | hd
    · exact ha
    · exact h.2 d hd⟩

/-- Writing bytes below the top of the address space keeps the canonical form. -/
theorem Memory.writeBytes_wf {m : List Host.Cell} {a : Nat} {bs : List Byte} (h : Memory.wf m)
    (ha : a + bs.length ≤ 2 ^ 64) : Memory.wf (Memory.writeBytes m a bs) := by
  induction bs generalizing m a with
  | nil => exact h
  | cons b bs ih =>
    simp only [List.length_cons] at ha
    exact ih (Memory.write_wf b h (by omega)) (by omega)

theorem Memory.wf_nil : Memory.wf [] := by decide

/-- The texts of the state after reset have the canonical form. -/
theorem State.reset_text_wf : ∀ pe ∈ State.reset.pes, Memory.wf pe.prog.text := by
  intro pe hpe
  have : pe = Pe.reset := by simpa [State.reset] using hpe
  exact this ▸ Memory.wf_nil

end Sys2Proof.Machine
end

