-- ==== Sys2Proof/Laws/Operands.lean ====
section
/-! SUPPORT. The TTL field by register bits, and the field an operation keeps. -/

namespace Sys2Proof.Machine

/-- TTL[3:2] of a register's TTL field. -/
theorem ttlGranule_extract (w : XWord) : ttlGranule (w.extractLsb' 44 4) = w.extractLsb' 46 2 := by
  unfold ttlGranule
  apply BitVec.eq_of_getLsbD_eq
  intro i hi
  interval_cases i <;> simp

/-- TTL[1:0] of a register's TTL field. -/
theorem ttlLevel_extract (w : XWord) : ttlLevel (w.extractLsb' 44 4) = w.extractLsb' 44 2 := by
  unfold ttlLevel
  apply BitVec.eq_of_getLsbD_eq
  intro i hi
  interval_cases i <;> simp

/-- A TTL value with both of its fields zero is zero. -/
theorem ttl_eq_zero : ∀ ttl : BitVec 4, ttlGranule ttl = 0 → ttlLevel ttl = 0 → ttl = 0 := by decide

/-- Where no res0 bit is set, an operation keeps the TTL field as written. -/
theorem liveTtl_of_res0 {cfg : Config} {nsRes0 : Bool} {op : Operand}
    (h : res0BitSet cfg nsRes0 op = false) : liveTtl cfg (ttlField op) = ttlField op := by
  unfold liveTtl res0BitSet at *
  simp only [Bool.or_eq_false_iff] at h
  obtain ⟨⟨-, h1⟩, h2⟩ := h
  cases hf : cfg.featTTL
  · simp only [hf, Bool.not_false, Bool.true_and, bne_eq_false_iff_eq] at h1
    simp [h1]
  · simp only [hf, Bool.true_and, Bool.and_eq_false_imp, beq_iff_eq, bne_eq_false_iff_eq] at h2
    simp only [Bool.not_true, Bool.false_eq_true, if_false, beq_iff_eq]
    split
    · rename_i hg
      exact (ttl_eq_zero _ hg (h2 hg)).symm
    · rfl

end Sys2Proof.Machine
end

