-- ==== Sys2Proof/Laws/PerInstr.lean ====
section
/-! SUPPORT. Statements about every instruction, one lemma per constructor. Family `TableMatch`: the word of a well-formed instruction meets the `match` and `mask` of its row of spec/opcode_table.json, and its low five bits are the register index. -/

namespace Sys2Proof

/-- The `match` of an instruction's row of the opcode table. -/
def Laws.TableMatch.row : Instr → Word
  | .tlbipIpas2le1os _ => 0xD54C8480
  | .tlbipIpas2le1osnxs _ => 0xD54C9480

/-- The word meets its row's mask and match, and carries the register index in bits [4:0]. -/
def Laws.TableMatch.Statement (i : Instr) : Prop :=
  i.wellFormed = true →
    encodeWord i &&& 0xFFFFFFE0 = Laws.TableMatch.row i ∧ (encodeWord i).toNat % 32 = i.rt

/-- Any word of the base variant. -/
theorem Laws.TableMatch.tlbipIpas2le1os (t : Nat) :
    Laws.TableMatch.Statement (.tlbipIpas2le1os t) := by
  intro h
  have ht : t < 32 := of_decide_eq_true h
  interval_cases t <;> decide

/-- Any word of the nXS variant. -/
theorem Laws.TableMatch.tlbipIpas2le1osnxs (t : Nat) :
    Laws.TableMatch.Statement (.tlbipIpas2le1osnxs t) := by
  intro h
  have ht : t < 32 := of_decide_eq_true h
  interval_cases t <;> decide

end Sys2Proof
end

