-- ==== Sys2Proof/Laws/Run.lean ====
section
/-! SUPPORT. Runs of the machine, one step at a time. -/

namespace Sys2Proof.Machine

/-- A run that begins with a step to a next state. -/
theorem run_succ {k : Nat} {s s1 : State} (h : step s = .next s1) :
    core.run (k + 1) s = core.run k s1 := by
  have hs : core.step s = .next s1 := h
  rw [Host.Core.run.eq_2 core s k, hs]

/-- A run of one step more, taken apart. -/
theorem run_succ_eq_next {k : Nat} {s s' : State} (h : core.run (k + 1) s = .next s') :
    ∃ s1, step s = .next s1 ∧ core.run k s1 = .next s' := by
  rw [Host.Core.run.eq_2 core s k] at h
  cases hs : core.step s with
  | next s1 => rw [hs] at h; exact ⟨s1, hs, h⟩
  | fault f => rw [hs] at h; cases h
  | refused r => rw [hs] at h; cases h

end Sys2Proof.Machine
end

