-- ==== Sys2Proof/Laws/Step.lean ====
section
/-! SUPPORT. What a step can do, said once for each kind of move. -/

namespace Sys2Proof.Machine

/-- The executing PE's step is an instruction fetched from its program, at a PE without an exception. -/
theorem runCurrent_eq_next {s s' : State} (h : runCurrent s = .next s') :
    ∃ pe i, s.pes[s.cur]? = some pe ∧ pe.exception = none ∧ fetch s.cfg pe = .next i ∧
      exec i s = .next s' := by
  obtain ⟨pe, hpe, hk⟩ := withCur_eq_next h
  split at hk
  · cases hk
  · rename_i hex
    obtain ⟨i, hi, he⟩ := andThen_eq_next hk
    exact ⟨pe, i, hpe, hex, hi, he⟩

/-- Where a fetch succeeds, the program counter is aligned, in the program, and not at the top of the address space. -/
theorem fetch_eq_next {cfg : Config} {pe : Pe} {i : Instr} (h : fetch cfg pe = .next i) :
    pe.pc.toNat % 4 = 0 ∧ inProgram cfg pe = true ∧ pe.pc.toNat + cfg.instrBytes < 2 ^ 64 := by
  unfold fetch at h
  split at h
  · cases h
  · split at h
    · cases h
    · split at h
      · cases h
      · split at h
        · cases h
        · refine ⟨?_, ?_, ?_⟩ <;> simp_all

section PerformedOp

variable (s : State) (q : Nat) (o : PendingOp)

@[simp] theorem performedOp_id : (performedOp s q o).id = o.id := rfl
@[simp] theorem performedOp_issuer : (performedOp s q o).issuer = o.issuer := rfl
@[simp] theorem performedOp_record : (performedOp s q o).record = o.record := rfl
@[simp] theorem performedOp_attr : (performedOp s q o).attr = o.attr := rfl
@[simp] theorem performedOp_performedAt : (performedOp s q o).performedAt = o.performedAt ++ [q] := rfl

/-- The entries an operation keeps from a perform step: those it had, and the match set of that PE's TLB. -/
theorem mem_performedOp_matched {x : Nat × TlbEntry} :
    x ∈ (performedOp s q o).matched ↔
      x ∈ o.matched ∨ ∃ pe, s.pes[q]? = some pe ∧ x.1 = q ∧ x.2 ∈ pe.tlb ∧
        entryMatches s.cfg o.record x.2 = true := by
  obtain ⟨p, e⟩ := x
  cases h : s.pes[q]? with
  | none => simp [performedOp, h]
  | some pe =>
    simp only [performedOp, h, matchSet, List.mem_append, List.mem_map, List.mem_filter, Prod.mk.injEq]
    refine or_congr_right ⟨?_, ?_⟩
    · rintro ⟨e', ⟨he, hm⟩, rfl, rfl⟩
      exact ⟨pe, rfl, rfl, he, hm⟩
    · rintro ⟨pe', hp, rfl, he, hm⟩
      cases hp
      exact ⟨e, ⟨he, hm⟩, rfl, rfl⟩

end PerformedOp

/-- What a perform step does (R97). -/
theorem perform_eq_next {id q : Nat} {s s' : State} (h : perform id q s = .next s') :
    ∃ o ∈ s.pendingTLBI, o.id = id ∧ q ∈ osDomain s o.issuer ∧ q ∉ o.performedAt ∧
      s' = performStep s o q := by
  unfold perform at h
  split at h
  · cases h
  · rename_i o ho
    split at h
    · rename_i hen
      have hid := List.find?_some ho
      simp only [performEnabled, Bool.and_eq_true, Bool.not_eq_true', List.contains_iff_mem] at hen
      exact ⟨o, List.mem_of_find?_eq_some ho, by simpa using hid, hen.1,
        by simpa using hen.2, (Host.Outcome.next.inj h).symm⟩
    · cases h

/-- What a complete step does (R97). -/
theorem completeOp_eq_next {id : Nat} {s s' : State} (h : completeOp id s = .next s') :
    ∃ o ∈ s.pendingTLBI, o.id = id ∧ completeEnabled s o = true ∧
      s' = { s with pendingTLBI := s.pendingTLBI.filter (fun o' => o'.id != id) } := by
  unfold completeOp at h
  split at h
  · cases h
  · rename_i o ho
    split at h
    · rename_i hen
      have hid := List.find?_some ho
      exact ⟨o, List.mem_of_find?_eq_some ho, by simpa using hid, hen, (Host.Outcome.next.inj h).symm⟩
    · cases h

/-- A move of the environment changes one PE. -/
theorem atPe_eq_next {q : Nat} {s s' : State} {f : Pe → Pe} (h : atPe q s f = .next s') :
    q < s.pes.length ∧ s' = s.modifyPe q f := by
  unfold atPe at h
  split at h
  · exact ⟨‹_›, (Host.Outcome.next.inj h).symm⟩
  · cases h

/-- A move on an in-flight access changes the PE that makes it. -/
theorem onAccess_eq_next {q k : Nat} {ok : Access → Bool} {f : Pe → Pe} {s s' : State}
    (h : onAccess q k ok f s = .next s') :
    ∃ pe a, s.pes[q]? = some pe ∧ pe.accesses[k]? = some a ∧ ok a = true ∧ s' = s.modifyPe q f := by
  unfold onAccess at h
  split at h
  · cases h
  · rename_i pe hpe
    split at h
    · cases h
    · rename_i a ha
      split at h
      · exact ⟨pe, a, hpe, ha, ‹_›, (Host.Outcome.next.inj h).symm⟩
      · cases h

/-- Changes the environment can make to a PE: to its TLB, or to its accesses, and to nothing else. -/
inductive EnvChange (cfg : Config) (f : Pe → Pe) : Prop where
  | gain (e : TlbEntry) (he : e.wf cfg = true)
      (hf : ∀ pe, f pe = { pe with tlb := if pe.tlb.contains e then pe.tlb else pe.tlb ++ [e] })
  | lose (e : TlbEntry) (hf : ∀ pe, f pe = { pe with tlb := pe.tlb.filter (fun e' => e' != e) })
  | access (g : List Access → List Access) (hf : ∀ pe, f pe = { pe with accesses := g pe.accesses })
      (hg : ∀ l, ∀ a ∈ g l, a.oldOf = [] ∨ ∃ a' ∈ l, a.oldOf = a'.oldOf ∧ a'.usedEntries ⊆ a.usedEntries)

/-- Every way a step can answer a next state. -/
inductive StepCase (s s' : State) : Prop where
  /-- an instruction, at the PE named by the empty agenda or by the move `run` -/
  | instr (r : State) (pe : Pe) (i : Instr)
      (hr : (s.agenda = [] ∧ r = s) ∨ ∃ p rest, s.agenda = .run p :: rest ∧ r = { s with cur := p, agenda := rest })
      (hpe : r.pes[r.cur]? = some pe) (hex : pe.exception = none) (hf : fetch r.cfg pe = .next i)
      (he : exec i r = .next s')
  | perform (o : PendingOp) (q : Nat) (rest : List Event) (ha : s.agenda = .perform o.id q :: rest)
      (ho : o ∈ s.pendingTLBI) (hq : q ∈ osDomain s o.issuer) (hn : q ∉ o.performedAt)
      (hs : s' = performStep { s with agenda := rest } o q)
  | complete (o : PendingOp) (rest : List Event) (ha : s.agenda = .complete o.id :: rest)
      (ho : o ∈ s.pendingTLBI) (hc : completeEnabled s o = true)
      (hs : s' = { s with agenda := rest, pendingTLBI := s.pendingTLBI.filter (fun o' => o'.id != o.id) })
  | env (q : Nat) (f : Pe → Pe) (ev : Event) (rest : List Event) (ha : s.agenda = ev :: rest)
      (hc : EnvChange s.cfg f)
      (htlb : (∃ e, ev = .gain q e) ∨ (∃ e, ev = .lose q e) ∨ ∀ pe, (f pe).tlb = pe.tlb)
      (hrun : ∀ id, ev ≠ .complete id ∧ (∀ q, ev ≠ .perform id q) ∧ ev ≠ .run id)
      (hs : s' = { s with agenda := rest }.modifyPe q f)

/-- Each access after `l.modify k f` carries the marks of one before it, and its used entries, where `f` keeps the marks and takes no used entry away. -/
theorem access_modify {f : Access → Access} (hf : ∀ a, (f a).oldOf = a.oldOf)
    (hu : ∀ a, a.usedEntries ⊆ (f a).usedEntries) (k : Nat) (l : List Access) :
    ∀ a ∈ l.modify k f, a.oldOf = [] ∨ ∃ a' ∈ l, a.oldOf = a'.oldOf ∧ a'.usedEntries ⊆ a.usedEntries := by
  intro a ha
  obtain ⟨j, hj⟩ := List.mem_iff_getElem?.1 ha
  rw [List.getElem?_modify] at hj
  cases hl : l[j]? with
  | none => simp [hl] at hj
  | some a' =>
    refine .inr ⟨a', List.mem_iff_getElem?.2 ⟨j, hl⟩, ?_⟩
    by_cases hk : k = j
    · simp only [hl, hk, if_true, Option.map_eq_map, Option.map_some, Option.some.injEq] at hj
      exact hj ▸ ⟨hf a', hu a'⟩
    · simp only [hl, hk, if_false, Option.map_eq_map, Option.map_some, Option.some.injEq] at hj
      exact hj ▸ ⟨rfl, List.Subset.refl _⟩

@[simp] theorem useEntry_oldOf (e : TlbEntry) (a : Access) : (useEntry e a).oldOf = a.oldOf := by
  unfold useEntry; split <;> rfl

theorem useEntry_usedEntries (e : TlbEntry) (a : Access) : a.usedEntries ⊆ (useEntry e a).usedEntries := by
  unfold useEntry
  split
  · exact List.Subset.refl _
  · exact List.subset_append_left _ _

@[simp] theorem finish_oldOf (a : Access) : (finish a).oldOf = a.oldOf := rfl

@[simp] theorem finish_usedEntries (a : Access) : (finish a).usedEntries = a.usedEntries := rfl

/-- What a step can do. -/
theorem step_cases {s s' : State} (h : step s = .next s') : StepCase s s' := by
  unfold step at h
  split at h
  · rename_i ha
    obtain ⟨pe, i, hpe, hex, hf, he⟩ := runCurrent_eq_next h
    exact .instr s pe i (.inl ⟨ha, rfl⟩) hpe hex hf he
  · rename_i ev rest ha
    cases ev with
    | run p =>
      obtain ⟨pe, i, hpe, hex, hf, he⟩ := runCurrent_eq_next h
      exact .instr _ pe i (.inr ⟨p, rest, ha, rfl⟩) hpe hex hf he
    | perform id q =>
      obtain ⟨o, ho, rfl, hq, hn, hs⟩ := perform_eq_next h
      exact .perform o q rest ha ho hq hn hs
    | complete id =>
      obtain ⟨o, ho, rfl, hc, hs⟩ := completeOp_eq_next h
      exact .complete o rest ha ho hc hs
    | gain q e =>
      simp only [handleEvent, gainEntry] at h
      split at h
      · rename_i hw
        exact .env q _ _ rest ha (.gain e hw fun _ => rfl) (.inl ⟨e, rfl⟩) (by simp) (atPe_eq_next h).2
      · cases h
    | lose q e =>
      exact .env q _ _ rest ha (.lose e fun _ => rfl) (.inr (.inl ⟨e, rfl⟩)) (by simp) (atPe_eq_next h).2
    | accessBegin q used xs =>
      refine .env q _ _ rest ha (.access (fun l => l ++ [⟨used, xs, false, []⟩]) (fun _ => rfl) ?_)
        (.inr (.inr fun _ => rfl)) (by simp) (atPe_eq_next h).2
      intro l a hm
      rcases List.mem_append.1 hm with hm | hm
      · exact .inr ⟨a, hm, rfl, List.Subset.refl _⟩
      · exact .inl (by rw [List.mem_singleton.1 hm])
    | accessUses q k e =>
      obtain ⟨-, -, -, -, -, hs⟩ := onAccess_eq_next h
      exact .env q _ _ rest ha (.access (fun l => l.modify k (useEntry e)) (fun _ => rfl) fun l => access_modify (useEntry_oldOf e) (useEntry_usedEntries e) k l)
        (.inr (.inr fun _ => rfl)) (by simp) hs
    | accessComplete q k =>
      obtain ⟨-, -, -, -, -, hs⟩ := onAccess_eq_next h
      exact .env q _ _ rest ha (.access (fun l => l.modify k finish) (fun _ => rfl) fun l => access_modify finish_oldOf (fun _ => List.Subset.refl _) k l)
        (.inr (.inr fun _ => rfl)) (by simp) hs
    | accessRetire q k =>
      obtain ⟨-, -, -, -, -, hs⟩ := onAccess_eq_next h
      exact .env q _ _ rest ha (.access (fun l => l.eraseIdx k) (fun _ => rfl) fun l a hm =>
          .inr ⟨a, List.mem_of_mem_eraseIdx hm, rfl, List.Subset.refl _⟩)
        (.inr (.inr fun _ => rfl)) (by simp) hs

/-- What a step does to a PE: nothing, an instruction's change (its program counter or its recorded exception), a perform step's change, or the environment's. No step changes the parameters or the number of PEs. -/
theorem step_pes {s s' : State} (h : step s = .next s') :
   s'.cfg = s.cfg ∧ s'.pes.length = s.pes.length ∧ ∀ q pe, s.pes[q]? = some pe → ∃ pe', s'.pes[q]? = some pe' ∧
     (pe' = pe ∨
      (∃ v e, pe' = { pe with pc := v, exception := e } ∧ pe.exception = none ∧
        (v = pe.pc ∨ (v = pe.pc + BitVec.ofNat 64 s.cfg.instrBytes ∧ ∃ i, fetch s.cfg pe = .next i)) ∧
        (s.agenda = [] ∨ ∃ p rest, s.agenda = .run p :: rest)) ∨
      (∃ o rest, o ∈ s.pendingTLBI ∧ s.agenda = .perform o.id q :: rest ∧ pe' = performAtPe s.cfg o pe) ∨
      ∃ f ev rest, s.agenda = ev :: rest ∧ EnvChange s.cfg f ∧ ((∃ e, ev = .gain q e) ∨ (∃ e, ev = .lose q e) ∨ ∀ pe, (f pe).tlb = pe.tlb) ∧ pe' = f pe) := by
  cases step_cases h with
  | instr r pe0 i hr hpe0 hex hf he =>
    have hrs : r.cfg = s.cfg ∧ r.pes = s.pes ∧ (s.agenda = [] ∨ ∃ p rest, s.agenda = .run p :: rest) := by
      rcases hr with ⟨ha, rfl⟩ | ⟨p, rest, ha, rfl⟩
      · exact ⟨rfl, rfl, .inl ha⟩
      · exact ⟨rfl, rfl, .inr ⟨p, rest, ha⟩⟩
    obtain ⟨hc, hp, hag⟩ := hrs
    rw [← hc, ← hp]
    obtain ⟨pe, hpe, hcases⟩ := exec_cases he
    rw [hpe0] at hpe; cases hpe
    have key : ∃ f : Pe → Pe, s'.cfg = r.cfg ∧ s'.pes = r.pes.modify r.cur f ∧ ((∃ e, ∀ pe, f pe = { pe with exception := e }) ∨ ∀ pe, f pe = { pe with pc := pe.pc + BitVec.ofNat 64 r.cfg.instrBytes}) := by
      rcases hcases with ⟨c, rfl⟩ | ⟨rfl, h1⟩ | ⟨rfl, h1⟩ | ⟨a, t2, hd, h1, ht, hi⟩
      · exact ⟨_, rfl, rfl, .inl ⟨_, fun _ => rfl⟩⟩
      · exact ⟨_, rfl, rfl, .inl ⟨_, fun _ => rfl⟩⟩
      · exact ⟨_, rfl, rfl, .inr fun _ => rfl⟩
      · obtain ⟨ss, sp, n, -, -, rfl⟩ := invalidate_eq_next hi
        exact ⟨_, rfl, rfl, .inr fun _ => rfl⟩
    obtain ⟨f, k1, k2, k3⟩ := key
    refine ⟨k1, by simp [k2], fun q pe hq => ?_⟩
    by_cases hqc : q = r.cur
    · subst hqc
      rw [hpe0] at hq; cases hq
      refine ⟨f pe0, by simp [k2, hpe0], .inr (.inl ?_)⟩
      rcases k3 with ⟨e, k3⟩ | k3
      · exact ⟨pe0.pc, e, k3 _, hex, .inl rfl, hag⟩
      · exact ⟨_, pe0.exception, k3 _, hex, .inr ⟨rfl, i, hf⟩, hag⟩
    · refine ⟨pe, ?_, .inl rfl⟩
      rw [k2, List.getElem?_modify, hq]; simp [Ne.symm hqc]
  | perform o q0 rest ha ho hqd hn hs =>
    subst hs
    refine ⟨rfl, by simp [performStep], fun q pe hq => ?_⟩
    by_cases hqc : q = q0
    · subst hqc
      refine ⟨performAtPe s.cfg o pe, State.modifyPe_get_same _ _ _ hq, .inr (.inr (.inl ⟨o, rest, ho, ha, rfl⟩))⟩
    · refine ⟨pe, ?_, .inl rfl⟩
      simp only [performStep]
      rw [State.modifyPe_get_other _ _ _ hqc]; exact hq
  | complete o rest ha ho hc hs =>
    subst hs
    exact ⟨rfl, rfl, fun q pe hq => ⟨pe, hq, .inl rfl⟩⟩
  | env q0 f ev rest ha hc htlb hrun hs =>
    subst hs
    refine ⟨rfl, by simp, fun q pe hq => ?_⟩
    by_cases hqc : q = q0
    · subst hqc
      refine ⟨f pe, by simp [hq], .inr (.inr (.inr ⟨f, ev, rest, ha, hc, ?_, rfl⟩))⟩
      exact htlb
    · refine ⟨pe, ?_, .inl rfl⟩
      rw [State.modifyPe_get_other _ _ _ hqc]; exact hq

/-- What a step does to the pending operations: nothing, one more at the end, one operation performed at one more PE, or one operation gone. -/
theorem step_ops {s s' : State} (h : step s = .next s') :
    (s'.pendingTLBI = s.pendingTLBI ∧ s'.nextOp = s.nextOp) ∨
    (∃ c ss sp n pe op a, securityStateAtEL1 s.cfg pe = some ss ∧ ipaSpaceOf s.cfg ss (nsBit op) = some (sp, n) ∧ c < s.pes.length ∧ s'.pendingTLBI = s.pendingTLBI ++ [⟨s.nextOp, c, ⟨ss, specifiedIpa op, sp, currentVmid s.cfg pe, liveTtl s.cfg (ttlField op)⟩, a, [], []⟩] ∧ s'.nextOp = s.nextOp + 1) ∨
    (∃ o q rest, o ∈ s.pendingTLBI ∧ s.agenda = .perform o.id q :: rest ∧ q ∈ osDomain s o.issuer ∧ q ∉ o.performedAt ∧ s'.nextOp = s.nextOp ∧ s'.pendingTLBI = s.pendingTLBI.map (fun o' => if o'.id = o.id then performedOp s q o' else o')) ∨
    (∃ o rest, o ∈ s.pendingTLBI ∧ s.agenda = .complete o.id :: rest ∧ completeEnabled s o = true ∧ s'.nextOp = s.nextOp ∧ s'.pendingTLBI = s.pendingTLBI.filter (fun o' => o'.id != o.id)) := by
  cases step_cases h with
  | instr r pe0 i hr hpe0 hex hf he =>
    have hrs : r.cfg = s.cfg ∧ r.pes = s.pes ∧ r.pendingTLBI = s.pendingTLBI ∧ r.nextOp = s.nextOp := by
      rcases hr with ⟨ha, rfl⟩ | ⟨p, rest, ha, rfl⟩
      · exact ⟨rfl, rfl, rfl, rfl⟩
      · exact ⟨rfl, rfl, rfl, rfl⟩
    obtain ⟨hc, hp, hpd, hn⟩ := hrs
    rw [← hc, ← hp, ← hpd, ← hn]
    obtain ⟨pe, hpe, hcases⟩ := exec_cases he
    rcases hcases with ⟨c, rfl⟩ | ⟨rfl, h1⟩ | ⟨rfl, h1⟩ | ⟨a, t2, hd, h1, ht, hi⟩
    · exact .inl ⟨rfl, rfl⟩
    · exact .inl ⟨rfl, rfl⟩
    · exact .inl ⟨rfl, rfl⟩
    · obtain ⟨ss, sp, n, h1, h2, rfl⟩ := invalidate_eq_next hi
      exact .inr (.inl ⟨_, ss, sp, n, _, _, _, h1, h2, (List.getElem?_eq_some_iff.1 hpe).1, rfl, rfl⟩)
  | perform o q0 rest ha ho hqd hn hs =>
    subst hs
    exact .inr (.inr (.inl ⟨o, q0, rest, ho, ha, hqd, hn, rfl, rfl⟩))
  | complete o rest ha ho hc hs =>
    subst hs
    exact .inr (.inr (.inr ⟨o, rest, ho, ha, hc, rfl, rfl⟩))
  | env q0 f ev rest ha hc htlb hrun hs =>
    subst hs
    exact .inl ⟨rfl, rfl⟩

end Sys2Proof.Machine
end

