-- ==== Sys2Proof/Laws/Tlb.lean ====
section
/-! SUPPORT. The Outer Shareable domain, operations by their numbers, and the completion condition. -/

namespace Sys2Proof.Machine

/-- The domain depends on the parameters and the number of PEs only. -/
theorem osDomain_congr {s s' : State} (hc : s'.cfg = s.cfg) (hl : s'.pes.length = s.pes.length)
    (p : Nat) : osDomain s' p = osDomain s p := by
  simp [osDomain, hc, hl]

theorem osDomain_nodup (s : State) (p : Nat) : (osDomain s p).Nodup :=
  List.Nodup.filter _ List.nodup_range

/-- A domain holds a PE only. -/
theorem osDomain_lt {s : State} {p q : Nat} (h : q ∈ osDomain s p) : q < s.pes.length :=
  List.mem_range.1 (List.mem_filter.1 h).1

/-- Two pending operations with one number are one. -/
theorem op_eq_of_id {l : List PendingOp} (h : (l.map (·.id)).Nodup) {o o' : PendingOp}
    (ho : o ∈ l) (ho' : o' ∈ l) (e : o.id = o'.id) : o = o' :=
  List.inj_on_of_nodup_map h ho ho' e

/-- Looking a pending operation up by its number finds it. -/
theorem find_op {l : List PendingOp} (h : (l.map (·.id)).Nodup) {o : PendingOp} (ho : o ∈ l) :
    l.find? (fun o' => o'.id == o.id) = some o := by
  cases hf : l.find? (fun o' => o'.id == o.id) with
  | none => exact absurd (List.find?_eq_none.1 hf o ho) (by simp)
  | some o' =>
    rw [op_eq_of_id h (List.mem_of_find?_eq_some hf) ho (by simpa using List.find?_some hf)]

/-- Every access of `q` that `o` waits for is complete. -/
theorem accessesDone_iff {s : State} {o : PendingOp} {q : Nat} :
    accessesDone s o q = true ↔
      ∀ pe, s.pes[q]? = some pe → ∀ a ∈ pe.accesses, waitsFor o q a = true → a.complete = true := by
  unfold accessesDone
  cases s.pes[q]? with
  | none => simp
  | some pe =>
    simp only [List.all_eq_true, Bool.or_eq_true, Bool.not_eq_true', Option.some.injEq, forall_eq']
    refine forall₂_congr fun a _ => ?_
    cases waitsFor o q a <;> simp

/-- In a state that meets the invariant, an access uses old information of a pending operation exactly when it uses an entry the operation matched at its PE (20 R59). -/
theorem usesOld_iff {s : State} (hI : s.Inv) {o : PendingOp} (ho : o ∈ s.pendingTLBI) {q : Nat}
    {pe : Pe} (hpe : s.pes[q]? = some pe) {a : Access} (ha : a ∈ pe.accesses) :
    usesOld o q a = true ↔ ∃ e ∈ a.usedEntries, (q, e) ∈ o.matched := by
  simp only [usesOld, Bool.or_eq_true, List.any_eq_true, List.contains_iff_mem]
  exact ⟨fun h => h.elim id (hI.marksUse q pe hpe a ha o ho), .inl⟩

/-- In a state that meets the invariant, an operation was performed everywhere once every PE of the domain is among the PEs it was performed at. -/
theorem performedEverywhere_iff {s : State} (hI : s.Inv) {o : PendingOp} (ho : o ∈ s.pendingTLBI) :
    performedEverywhere s o = true ↔ ∀ q ∈ osDomain s o.issuer, q ∈ o.performedAt := by
  simp only [performedEverywhere, Bool.and_eq_true, List.all_eq_true, List.contains_iff_mem]
  exact ⟨fun h => h.1, fun h => ⟨h, (hI.ops o ho).performedIn⟩⟩

/-- The IPA of a record is page aligned (30 R79). -/
theorem specifiedIpa_mod (op : Operand) : (specifiedIpa op).toNat % 4096 = 0 := by
  unfold specifiedIpa
  rw [BitVec.toNat_append]
  simp [Nat.shiftLeft_eq]

/-- The IPA space an execution targets is one its Security state can target (40 R92). -/
theorem ipaSpaceOf_legal {cfg : Config} {ss : SecurityState} {ns nsRes0 : Bool} {space : IpaSpace}
    {ipa : Ipa} {v : Nat} {t : BitVec 4} (h : ipaSpaceOf cfg ss ns = some (space, nsRes0)) :
    TlbiRecord.spaceLegal ⟨ss, ipa, space, v, t⟩ := by
  unfold ipaSpaceOf at h
  cases ss with
  | secure =>
    simp only at h
    split at h
    · cases h
      cases ns <;> simp [TlbiRecord.spaceLegal]
    · cases h
  | nonSecure => cases h; simp [TlbiRecord.spaceLegal]
  | realm => cases h; simp [TlbiRecord.spaceLegal]

end Sys2Proof.Machine
end

