-- ==== Sys2Proof/Tests/Slice0.lean ====
section
/-! SUPPORT. Tests: the well-formedness check, decoding of words written out from the spec, single steps with results from spec/95_test_vectors.md, and, for every statement with hypotheses, a state and operands that meet them. -/

namespace Sys2Proof.Tests

open Sys2Proof Sys2Proof.Machine

/-! ### Well-formedness and decoding -/

/-- Rt has 5 bits (30 R74). -/
theorem test_wellFormed_refuses_rt_32 :
    (Instr.tlbipIpas2le1os 32).wellFormed = false ∧ (Instr.tlbipIpas2le1osnxs 32).wellFormed = false ∧
    (Instr.tlbipIpas2le1os 31).wellFormed = true ∧ (Instr.tlbipIpas2le1osnxs 31).wellFormed = true := by decide

/-- `1101010101 0 01 100 1000 0100 100 00000` (30 R71, R74), as the opcode table numbers its bits. -/
theorem test_decode_base_bits :
    decodeTableWord 32 0b1101010101_0_01_100_1000_0100_100_00000 = some (.tlbipIpas2le1os 0) := by decide

/-- `1101010101 0 01 100 1001 0100 100 00101` (30 R72, R74): Rt = 5. -/
theorem test_decode_nxs_bits :
    decodeTableWord 32 0b1101010101_0_01_100_1001_0100_100_00101 = some (.tlbipIpas2le1osnxs 5) := by decide

/-- 95 section 2.7: bit 22 clear is outside the spec. -/
theorem test_decode_refuses_other_word : decodeTableWord 32 0xD50C8480 = none := by decide

/-- 95 section 2.7: the bytes of `TLBIP IPAS2LE1OSNXS, X4, X5`, and of the base form with its operands omitted. -/
theorem test_encode_bytes :
    encode (.tlbipIpas2le1osnxs 4) = [0x84, 0x94, 0x4c, 0xd5] ∧
    encode (.tlbipIpas2le1os (asmRt none)) = [0x9f, 0x84, 0x4c, 0xd5] := by decide

/-! ### States for the tests -/

/-- The next state of an outcome. -/
def nextOf (o : Host.Outcome State Fault Refusal) : Option State :=
  match o with
  | .next s => some s
  | .fault _ => none
  | .refused _ => none

/-- A PE with two registers set. -/
def withX01 (pe : Pe) (x0 x1 : XWord) : Pe := { pe with x := (pe.x.set 0 x0).set 1 x1 }

/-- PE0 of program P1 (95 section 3): Non-secure EL2, VMID 5, the operand of vector F1. -/
def pe1 : Pe :=
  { withX01 Pe.reset 0x0000700000000000 0x0000000000080004 with
    el := .el2
    el2EnabledField := true
    scrNS := true
    vmid := 5 }

/-- Two PEs, the first one given. -/
def stateOf (pe : Pe) (agenda : List Event) : State :=
  { State.reset with pes := [pe, Pe.reset], agenda := agenda }

/-- Entry e1 of 95 section 2.5. -/
def e1 : TlbEntry := ⟨.s2only, .bits128, true, 3, .g4KB, .nonSecureEL10, .nonSecureIPA, 5, 0x80004000, 0x1000⟩

/-- The operation program P1 issues. -/
def op1 : PendingOp := ⟨0, 0, ⟨.nonSecure, 0x80004000, .nonSecureIPA, 5, 0b0111⟩, .allAttr, [], []⟩

/-- A state with that operation, or a variant of it, pending. -/
def pendingState (o : PendingOp) (agenda : List Event) : State :=
  { stateOf { pe1 with tlb := [e1] } agenda with pendingTLBI := [o], nextOp := 1 }

/-! ### Single steps -/

/-- Program P1 step 1 (95 section 3): what `TLBIP IPAS2LE1OS, X0, X1` issues. -/
theorem test_base_issues_p1 :
    ((nextOf (step (State.withFetchWord (stateOf pe1 []) 32 0xD54C8480))).map
      (fun s => (s.pendingTLBI, s.pes.map (·.pc)))) = some ([op1], [4, 0]) := by decide

/-- Vector X10: at EL1 with EL2 enabled and NV set, the trap to EL2 with code 0x14, the program counter unchanged. -/
theorem test_base_traps_x10 :
    ((nextOf (exec (.tlbipIpas2le1os 2) (stateOf { pe1 with el := .el1, hcrNVField := true } []))).map
      (fun s => s.pes.map (fun pe => (pe.exception, pe.pc)))) =
      some [(some (.systemAccessTrap .el2 0x14), 0), (none, 0)] := by decide

/-- Program P4 step 2 (vectors X26, S9): Secure EL2, NS set, `ExcludeXS`. -/
theorem test_nxs_issues_p4 :
    ((nextOf (exec (.tlbipIpas2le1osnxs 0)
      (stateOf { withX01 pe1 0x8000000000000000 0x0000000000080004 with scrNS := false } []))).map
      (fun s => s.pendingTLBI)) =
      some [⟨0, 0, ⟨.secure, 0x80004000, .nonSecureIPA, 5, 0b0000⟩, .excludeXS, [], []⟩] := by decide

/-- Vector X18: without FEAT_XS the nXS variant is Undefined (U2) even where the base variant would trap. -/
theorem test_nxs_undefined_x18 :
    ((nextOf (exec (.tlbipIpas2le1osnxs 2)
      { stateOf { pe1 with el := .el1, hcrNVField := true } [] with cfg := { Config.launch with featXS := false } })).map
      (fun s => s.pes.map (·.exception))) = some [some (.undefined .u2), none] := by decide

/-- The opcode table's words run as the first instruction after reset: at EL3 with EL2 not enabled they advance the program counter. -/
theorem test_first_instruction_after_reset :
    (nextOf (step (State.reset.withFetchWord 32 0xD54C8480))).map (fun s => s.pes.map (·.pc)) = some [4, 0] ∧
    (nextOf (step (State.reset.withFetchWord 32 0xD54C9480))).map (fun s => s.pes.map (·.pc)) = some [4, 0] := by decide

/-- Vectors M2, M4, M7: a level-specific TTL, a wrong one, and one that is treated as none without FEAT_LPA2. -/
theorem test_match_m2_m4_m7 :
    entryMatches Config.launch ⟨.nonSecure, 0x80004000, .nonSecureIPA, 5, 0b0111⟩ e1 = true ∧
    entryMatches Config.launch ⟨.nonSecure, 0x80004000, .nonSecureIPA, 5, 0b0101⟩ e1 = false ∧
    entryMatches Config.launch ⟨.nonSecure, 0x80004000, .nonSecureIPA, 5, 0b0100⟩ e1 = true ∧
    entryMatches Config.launch ⟨.nonSecure, 0x80004000, .nonSecureIPA, 5, 0b0100⟩ { e1 with descBits := .bits64 } = false := by
  decide

/-! ### Performing and completing -/

/-- PE0 with e1, which the operation matches, and e3, which differs in its VMID, and two accesses that use it, one with XS attribute 1. -/
def peK : Pe := { pe1 with tlb := [e1, { e1 with vmid := 6 }], accesses := [⟨[e1], false, false, []⟩, ⟨[e1], true, false, []⟩] }

/-- Vectors K1, M2: perform removes the matched entry only, and marks both accesses. -/
theorem test_perform_marks :
    (nextOf (step { stateOf peK [.perform 0 0] with pendingTLBI := [op1], nextOp := 1 })).map
      (fun s => (s.pes.map (fun pe => (pe.tlb.map (·.vmid), pe.accesses.map (·.oldOf))),
        s.pendingTLBI.map (·.matched))) =
      some ([([6], [[0], [0]]), ([], [])], [[(0, e1)]]) := by decide

/-- PE0 after the perform step, the access with XS attribute 0 complete (vectors K1, K2). -/
def peK' : Pe := { pe1 with accesses := [⟨[e1], false, true, [0]⟩, ⟨[e1], true, false, [0]⟩] }

/-- Vectors K1, K2: the base variant still waits for the XS = 1 access, the nXS variant does not. -/
theorem test_complete_k1_k2 :
    nextOf (completeOp 0 { stateOf peK' [] with pendingTLBI := [{ op1 with performedAt := [0, 1], matched := [(0, e1)] }] }) = none ∧
    (nextOf (completeOp 0 { stateOf peK' [] with
      pendingTLBI := [{ op1 with performedAt := [0, 1], matched := [(0, e1)], attr := .excludeXS }] })).map (·.pendingTLBI) = some [] := by decide

/-- 20 R59 (ii), R60: an access that begins with a matched entry after the perform step is not marked, and holds up both variants until it completes; an entry never matched (vector K4) does not. -/
theorem test_complete_late_use :
    let o : PendingOp := { op1 with performedAt := [0, 1], matched := [(0, e1)] }
    let late (e : TlbEntry) : State := stateOf { pe1 with accesses := [⟨[e], false, false, []⟩] } []
    completeEnabled (late e1) o = false ∧ completeEnabled (late e1) { o with attr := .excludeXS } = false ∧
    completeEnabled (late { e1 with vmid := 6 }) o = true := by decide

/-- A PE with one instruction as its program. -/
def withInstr (i : Instr) (pe : Pe) : Pe :=
  { pe with prog := ⟨pe.pc, 1, Memory.writeBytes [] pe.pc.toNat (encode i)⟩ }

/-- R152: a launch state is at the base of its program. -/
theorem test_launch_pc :
    (stateOf (withInstr (.tlbipIpas2le1os 0) pe1) []).launch = true ∧
    (stateOf { withInstr (.tlbipIpas2le1os 0) pe1 with pc := 4 } []).launch = false := by decide

/-- R142 P6: {NSE, NS} = {1, 0} with FEAT_RME is ruled out only where the invalidation path is taken: not at EL1, not at EL3 without EL2, not with an empty program, an unpaired register or, for nXS, without FEAT_XS. -/
theorem test_launch_p6 :
    let cfg : Config := { Config.launch with featRME := true, featXS := false }
    let s (pe : Pe) : State := { stateOf pe [] with cfg := cfg }
    let reserved : Pe := { pe1 with scrNSE := true, scrNS := false }
    (s (withInstr (.tlbipIpas2le1os 0) reserved)).launch = false ∧
    (s (withInstr (.tlbipIpas2le1os 0) { reserved with el := .el1 })).launch = true ∧
    (s (withInstr (.tlbipIpas2le1os 0) { reserved with el := .el3, el2EnabledField := false })).launch = true ∧
    (s reserved).launch = true ∧ (s (withInstr (.tlbipIpas2le1os 1) reserved)).launch = true ∧
    (s (withInstr (.tlbipIpas2le1osnxs 0) reserved)).launch = true := by decide

/-- PerformRemovesExactlyTheMatchSet, at a PE that holds a matching entry in use. -/
theorem test_hyps_perform_match :
    e1 ∈ peK.tlb ∧ entryMatches Config.launch op1.record e1 = true ∧
    ∃ a ∈ peK.accesses, ∃ e ∈ a.usedEntries, e ∈ peK.tlb ∧ entryMatches Config.launch op1.record e = true := by decide

/-- NxsCompletesWheneverBaseWould: an operation that can complete, with an access in flight, of XS attribute 0. -/
theorem test_hyps_nxsCompletes :
    let s := stateOf { pe1 with accesses := [⟨[e1], false, true, [0]⟩] } []
    completeEnabled s { op1 with performedAt := [0, 1] } = true ∧
    ∀ pe ∈ s.pes, ∀ a ∈ pe.accesses, a.xs = false := by decide

/-! ### Witnesses of the hypotheses -/

/-- DecodeOfEncodeIsTheInstruction, at the largest register index. -/
theorem test_hyps_decodeOfEncode : (Instr.tlbipIpas2le1osnxs 31).wellFormed = true := by decide

/-- DecodedBytesAreTheEncoding. -/
theorem test_hyps_decodedBytes :
    decode [0x9f, 0x94, 0x4c, 0xd5, 0x00] = .ok (.tlbipIpas2le1osnxs 31, [0x00]) := rfl

/-- PE0 of P1 with the program's bytes as its text. -/
def pe1Prog : Pe := { pe1 with prog := ⟨0, 1, [(0, 0x80), (1, 0x84), (2, 0x4c), (3, 0xd5)]⟩ }

/-- StepRunsTheDecodedInstruction, both clauses. -/
theorem test_hyps_stepRuns :
    (stateOf pe1Prog []).pes[(stateOf pe1Prog []).cur]? = some pe1Prog ∧ pe1Prog.exception = none ∧
    pe1Prog.pc.toNat % 4 = 0 ∧ inProgram Config.launch pe1Prog = true ∧
    pe1Prog.pc.toNat + Config.launch.instrBytes < 2 ^ 64 ∧
    Memory.read pe1Prog.prog.text pe1Prog.pc.toNat = some 0x80 ∧
    Memory.read pe1Prog.prog.text (pe1Prog.pc.toNat + 1) = some 0x84 ∧
    Memory.read pe1Prog.prog.text (pe1Prog.pc.toNat + 2) = some 0x4c ∧
    Memory.read pe1Prog.prog.text (pe1Prog.pc.toNat + 3) = some 0xd5 ∧
    decode [0x80, 0x84, 0x4c, 0xd5] = .ok (.tlbipIpas2le1os 0, []) ∧
    (stateOf pe1Prog []).agenda = [] :=
  ⟨rfl, rfl, rfl, by decide, by decide, rfl, rfl, rfl, rfl, rfl, rfl⟩

/-- The same PE with a word outside the spec. -/
def pe1Other : Pe := { pe1 with prog := ⟨0, 1, [(0, 0x80), (1, 0x84), (2, 0x0c), (3, 0xd5)]⟩ }

/-- WordOutsideTheSpecIsRefused. -/
theorem test_hyps_wordOutside :
    (stateOf pe1Other []).pes[(stateOf pe1Other []).cur]? = some pe1Other ∧ pe1Other.exception = none ∧
    pe1Other.pc.toNat % 4 = 0 ∧ inProgram Config.launch pe1Other = true ∧
    pe1Other.pc.toNat + Config.launch.instrBytes < 2 ^ 64 ∧
    fetchBytes pe1Other.prog.text pe1Other.pc.toNat = some (0x80, 0x84, 0x0c, 0xd5) ∧
    wordOfBytes 0x80 0x84 0x0c 0xd5 &&& 0xFFFFFFE0 ≠ 0xD54C8480 ∧
    wordOfBytes 0x80 0x84 0x0c 0xd5 &&& 0xFFFFFFE0 ≠ 0xD54C9480 :=
  ⟨rfl, rfl, rfl, by decide, by decide, rfl, by decide, by decide⟩

/-- BadProgramCounterIsRefused: a misaligned program counter, and one at the last aligned address of the address space. -/
theorem test_hyps_badPc :
    ({ pe1 with pc := 2 } : Pe).pc.toNat % 4 ≠ 0 ∧
    (let pe : Pe := { pe1 with pc := 0xFFFFFFFFFFFFFFFC, prog := ⟨0xFFFFFFFFFFFFFFFC, 1, []⟩ }
     (stateOf pe []).pes[(stateOf pe []).cur]? = some pe ∧ pe.exception = none ∧
     pe.pc.toNat % 4 = 0 ∧ inProgram Config.launch pe = true ∧
     2 ^ 64 ≤ pe.pc.toNat + Config.launch.instrBytes) := by decide

/-- ExitedPeTakesNoStep: a PE with an empty program (70 R152). -/
theorem test_hyps_exited :
    State.reset.pes[State.reset.cur]? = some Pe.reset ∧ Pe.reset.exception = none ∧ Pe.reset.pc.toNat % 4 = 0 ∧
    Pe.reset.pc.toNat = Pe.reset.prog.base.toNat + Config.launch.instrBytes * Pe.reset.prog.len := by decide

/-- BaseVariantIssuesAnAllAttrOperation and NxsVariantIssuesAnExcludeXsOperation, at EL2 with register 30, whose partner reads as zero. -/
theorem test_hyps_issue :
    (stateOf pe1 []).pes[(stateOf pe1 []).cur]? = some pe1 ∧ pairOf Config.launch 30 = some 31 ∧
    Config.launch.featD128 = true ∧ Config.launch.featXS = true ∧ pe1.el = .el2 ∧
    securityStateAtEL1 Config.launch pe1 = some .nonSecure ∧
    ipaSpaceOf Config.launch .nonSecure (nsBit (operandOf pe1 30 31)) = some (.nonSecureIPA, true) ∧
    res0BitSet Config.launch true (operandOf pe1 30 31) = false ∧
    (0 : BitVec 4) = (readX pe1 30).extractLsb' 44 4 := by decide

/-- The same under `res0Policy = ignore` with every res0 bit set (vector F15), at EL3 with EL2 enabled. -/
theorem test_hyps_issue_ignore :
    let pe : Pe := { withX01 pe1 0xFFFFFFFFFFFFFFFF 0xFFFFFFFFFFFFFFFF with el := .el3 }
    let cfg : Config := { Config.launch with res0Policy := .ignore }
    let s : State := { stateOf pe [] with cfg := cfg }
    s.pes[s.cur]? = some pe ∧ pairOf cfg 0 = some 1 ∧ cfg.featD128 = true ∧ cfg.featXS = true ∧
    pe.el = .el3 ∧ el2Enabled cfg pe = true ∧ securityStateAtEL1 cfg pe = some .nonSecure ∧
    ipaSpaceOf cfg .nonSecure (nsBit (operandOf pe 0 1)) = some (.nonSecureIPA, true) ∧
    res0BitSet cfg true (operandOf pe 0 1) = true ∧ cfg.res0Policy = .ignore ∧
    (0b1111 : BitVec 4) = (if cfg.featTTL = false ∨ (readX pe 0).extractLsb' 46 2 = 0 then 0
      else (readX pe 0).extractLsb' 44 4) := by decide

/-- VariantsPerformTheSameInvalidation. -/
theorem test_hyps_sameInvalidation : (stateOf pe1 []).cfg.featXS = true := rfl

/-- SetRes0BitIsRefused: vector F8, operand bit 0, at EL2 with every other hypothesis met. -/
theorem test_hyps_res0 :
    let pe := withX01 pe1 1 0
    (stateOf pe []).pes[(stateOf pe []).cur]? = some pe ∧ pairOf Config.launch 0 = some 1 ∧
    Config.launch.featD128 = true ∧ pe.el = .el2 ∧ securityStateAtEL1 Config.launch pe = some .nonSecure ∧
    ipaSpaceOf Config.launch .nonSecure (nsBit (operandOf pe 0 1)) = some (.nonSecureIPA, true) ∧
    (readX pe 0).extractLsb' 0 44 ≠ 0 ∧ Config.launch.res0Policy = .refuse ∧
    Config.launch.featXS = true := by decide

/-- SetRes0BitIsRefused, each other res0 bit at a boundary of its field: vectors F4, F10, F12, the NS bit, and the TTL field without FEAT_TTL. -/
theorem test_hyps_res0_fields :
    (readX (withX01 pe1 0 0x0000100000000000) 1).extractLsb' 44 20 ≠ 0 ∧
    (readX (withX01 pe1 0x0001000000000000 0) 0).extractLsb' 48 15 ≠ 0 ∧
    (readX (withX01 pe1 0x8000000000000000 0) 0).getLsbD 63 = true ∧
    (Config.launch.featTTL = true ∧ (readX (withX01 pe1 0x0000100000000000 0) 0).extractLsb' 46 2 = 0 ∧
      (readX (withX01 pe1 0x0000100000000000 0) 0).extractLsb' 44 2 ≠ 0) ∧
    (({ Config.launch with featTTL := false } : Config).featTTL = false ∧
      (readX pe1 0).extractLsb' 44 4 ≠ 0) := by decide

/-- StatesWithoutAMeaningAreRefused: FEAT_RME with {NSE, NS} = {1, 0}, and Secure without FEAT_RME and FEAT_SEL2. -/
theorem test_hyps_noMeaning :
    let reserved : Pe := { pe1 with scrNSE := true, scrNS := false }
    let secure : Pe := { pe1 with scrNS := false }
    let noSel2 : Config := { Config.launch with featSEL2 := false }
    (stateOf reserved []).pes[0]? = some reserved ∧ (stateOf secure []).pes[0]? = some secure ∧
    pairOf Config.launch 0 = some 1 ∧ pe1.el = .el2 ∧ Config.launch.featD128 = true ∧
    (Config.launch.haveEL3 = true ∧ ({ Config.launch with featRME := true } : Config).featRME = true ∧
      reserved.scrNSE = true ∧ reserved.scrNS = false) ∧
    (noSel2.featRME = false ∧ noSel2.featSEL2 = false ∧ securityStateAtEL1 noSel2 secure = some .secure) := by decide

/-- LaunchPremisesLeaveOnlyTheRes0Refusal. -/
theorem test_hyps_launch :
    (stateOf pe1 []).pes[(stateOf pe1 []).cur]? = some pe1 ∧ secureEl2NeedsSel2 Config.launch pe1 = true ∧
    nseNsLegalFor Config.launch pe1 (.tlbipIpas2le1os 0) = true ∧ el2EnabledAtEl2 Config.launch pe1 = true := by decide

/-- El3WithoutEl2IsANoOperation: vectors X13, X27. -/
theorem test_hyps_el3 :
    State.reset.pes[State.reset.cur]? = some Pe.reset ∧ pairOf Config.launch 31 = some 31 ∧
    Config.launch.featD128 = true ∧ Pe.reset.el = .el3 ∧ el2Enabled Config.launch Pe.reset = false ∧
    Config.launch.featXS = true := by decide

/-- El1WithNvTrapsToEl2: vectors X10, X25. -/
theorem test_hyps_trap :
    let pe : Pe := { pe1 with el := .el1, hcrNVField := true }
    (stateOf pe []).pes[(stateOf pe []).cur]? = some pe ∧ pairOf Config.launch 0 = some 1 ∧
    Config.launch.featD128 = true ∧ pe.el = .el1 ∧ Config.launch.haveEL2 = true ∧ pe.el2EnabledField = true ∧
    Config.launch.haveNV = true ∧ pe.hcrNVField = true ∧ Config.launch.featXS = true := by decide

/-- UndefinedCausesInOrder, clause U5: the largest odd index with no pair. -/
theorem test_hyps_u5 : (stateOf pe1 []).pes[0]? = some pe1 ∧ pairOf Config.launch 29 = none := by decide

/-- UndefinedCausesInOrder, clauses U1 and U2. -/
theorem test_hyps_u1_u2 :
    pairOf { Config.launch with featD128 := false } 30 = some 31 ∧
    ({ Config.launch with featD128 := false } : Config).featD128 = false ∧
    pairOf { Config.launch with featXS := false } 30 = some 31 ∧
    ({ Config.launch with featXS := false } : Config).featD128 = true ∧
    ({ Config.launch with featXS := false } : Config).featXS = false := by decide

/-- UndefinedCausesInOrder, clauses U3 (vector X6) and U4 (vectors X8, X9). -/
theorem test_hyps_u3_u4 :
    ({ pe1 with el := .el0, hcrNVField := true } : Pe).el = .el0 ∧
    (let pe : Pe := { pe1 with el := .el1, hcrNVField := true, el2EnabledField := false }
     pe.el = .el1 ∧ pe.el2EnabledField = false) ∧
    (let pe : Pe := { pe1 with el := .el1, hcrNVField := false }
     pe.el = .el1 ∧ pe.hcrNVField = false) ∧
    ({ Config.launch with haveEL2 := false } : Config).haveEL2 = false ∧
    ({ Config.launch with haveNV := false } : Config).haveNV = false ∧
    Config.launch.featD128 = true ∧ Config.launch.featXS = true := by decide

/-- ExecHasFourOutcomes, ExecFrame: an execution that answers a next state, and PEs before and after it. -/
theorem test_hyps_exec :
    ∃ s', exec (.tlbipIpas2le1os 0) (stateOf pe1 []) = .next s' ∧
      (stateOf pe1 []).pes[0]? = some pe1 ∧ ∃ pe', s'.pes[0]? = some pe' := ⟨_, rfl, rfl, _, rfl⟩

/-- RepeatedExecutionIssuesTwoOperations. -/
theorem test_hyps_repeat :
    ∃ s1, exec (.tlbipIpas2le1os 0) (stateOf pe1 []) = .next s1 ∧
      s1.pendingTLBI ≠ (stateOf pe1 []).pendingTLBI := ⟨_, rfl, by decide⟩

/-- RegistersUnreadOffTheInvalidationPath: EL1 and EL3 without EL2. -/
theorem test_hyps_unread :
    (stateOf { pe1 with el := .el1 } []).pes[0]? = some { pe1 with el := .el1 } ∧
    invalidating Config.launch { pe1 with el := .el1 } = false ∧
    invalidating Config.launch Pe.reset = false := by decide

/-- ReservedTtlEncodingsGiveNoLevel: each of the four encodings (M9, M10, M7, M11). -/
theorem test_hyps_reservedTtl :
    Config.launch.featTTL = true ∧ Config.launch.featLPA2 = false ∧
    ttlField (operandOf (withX01 pe1 0x0000800000000000 0) 0 1) = 0b1000 ∧
    ttlField (operandOf (withX01 pe1 0x0000C00000000000 0) 0 1) = 0b1100 ∧
    ttlField (operandOf (withX01 pe1 0x0000400000000000 0) 0 1) = 0b0100 ∧
    ttlField (operandOf (withX01 pe1 0x0000900000000000 0) 0 1) = 0b1001 := by decide

/-- SecurityStateAndIpaSpaceTable: each kind of configuration, and TtlDecodeTable's hypothesis. -/
theorem test_hyps_securityState :
    ({ Config.launch with haveEL3 := false } : Config).haveEL3 = false ∧
    (Config.launch.haveEL3 = true ∧ Config.launch.featRME = false ∧ Config.launch.featSEL2 = true) ∧
    (({ Config.launch with featRME := true } : Config).haveEL3 = true ∧
      ({ Config.launch with featRME := true } : Config).featRME = true) ∧
    ({ Config.launch with featSEL2 := false } : Config).featSEL2 = false ∧ Config.launch.featTTL = true ∧
    ({ Config.launch with featTTL := false } : Config).featTTL = false := by decide

/-- RangeTestIsTheSameOverThePage: the last address of the page of e1. -/
theorem test_hyps_page :
    e1.ipaBase.toNat % 4096 = 0 ∧ e1.ipaSize % 4096 = 0 ∧ (0x80004000 : Ipa).toNat % 4096 = 0 ∧
    (0x80004000 : Ipa).toNat ≤ (0x80004FFF : Ipa).toNat ∧
    (0x80004FFF : Ipa).toNat < (0x80004000 : Ipa).toNat + 4096 := by decide

/-- IncorrectTtlMatchesNothing: vectors M3 (level) and M5 (granule) against e1. -/
theorem test_hyps_incorrectTtl :
    (ttlDecode Config.launch 0b0110 = .level .g4KB 2 ∧ e1.level ≠ 2) ∧
    (ttlDecode Config.launch 0b1011 = .level .g16KB 3 ∧ e1.granule ≠ .g16KB) := by decide

/-- SixtyFourBitEntriesNeedNoTtl: vector M1 with e2 (64 bits), vector M2 with e1. -/
theorem test_hyps_sixtyFour :
    entryMatches Config.launch ⟨.nonSecure, 0x80004000, .nonSecureIPA, 5, 0b0000⟩ { e1 with descBits := .bits64 } = true ∧
    entryMatches Config.launch ⟨.nonSecure, 0x80004000, .nonSecureIPA, 5, 0b0111⟩ e1 = true ∧
    ttlDecode Config.launch 0b0111 = .level .g4KB 3 := by decide

/-- CombinedEntriesNeverMatch: e4 and e12. -/
theorem test_hyps_combined :
    ({ e1 with stage := .s1s2combined } : TlbEntry) ∈ ({ pe1 with tlb := [{ e1 with stage := .s1s2combined }] } : Pe).tlb ∧
    ({ e1 with stage := .s1only } : TlbEntry) ∈ ({ pe1 with tlb := [{ e1 with stage := .s1only }] } : Pe).tlb := by
  decide

/-- DomainIsTheIssuerAndItsListedPeers: three PEs, of which the parameter lists PE 1 for PE 0 and PE 2 for none. -/
theorem test_hyps_domain :
    let s : State := { State.reset with pes := [Pe.reset, Pe.reset, Pe.reset] }
    0 < s.pes.length ∧ 1 ∈ osDomain s 0 ∧ s.cfg.osPeers[0]? = some [1] ∧ 2 < s.pes.length ∧ 2 ∉ osDomain s 0 := by
  decide

/-- The states with an operation pending meet the invariant. -/
theorem test_pendingState_inv (l : List Nat) (hl : l = [] ∨ l = [0, 1]) (a : Attr) (agenda : List Event) :
    (pendingState { op1 with performedAt := l, attr := a } agenda).Inv := by
  refine ⟨?_, ?_, by simp [pendingState], ?_, ?_⟩
  · intro pe hpe
    simp only [pendingState, stateOf, List.mem_cons, List.not_mem_nil, or_false] at hpe
    rcases hpe with rfl | rfl
    · exact ⟨Memory.wf_nil, by simp, (by decide : ∀ e ∈ [e1], TlbEntry.wf Config.launch e = true)⟩
    · exact ⟨Memory.wf_nil, by decide, (by decide : ∀ e ∈ Pe.reset.tlb, TlbEntry.wf Config.launch e = true)⟩
  · intro o ho
    simp only [pendingState, List.mem_singleton] at ho
    subst ho
    refine ⟨(by decide : (0 : Nat) < 1), (by decide : (0 : Nat) < 2), ?_, ?_,
      (by simp [op1]), (by decide : op1.record.ipa.toNat % 4096 = 0),
      (by decide : op1.record.vmid < 2 ^ Config.launch.vmidWidth), rfl⟩
    · have hd : osDomain (pendingState { op1 with performedAt := l, attr := a } agenda) op1.issuer = [0, 1] := rfl
      simp only [hd]
      rcases hl with rfl | rfl <;> simp
    · rcases hl with rfl | rfl <;> simp
  · intro pe hpe x hx
    simp only [pendingState, stateOf, List.mem_cons, List.not_mem_nil, or_false] at hpe
    rcases hpe with rfl | rfl <;> cases hx
  · intro q pe hpe x hx
    have hm := List.mem_of_getElem? hpe
    simp only [pendingState, stateOf, List.mem_cons, List.not_mem_nil, or_false] at hm
    rcases hm with rfl | rfl <;> cases hx

/-- PerformRemovesExactlyTheMatchSet, PerformingEverywhereCompletesTheOperation: the operation of P1, performed nowhere yet, with no access in flight. -/
theorem test_hyps_perform :
    let s := pendingState op1 [.perform 0 1]
    s.Inv ∧ s.agenda = .perform op1.id 1 :: [] ∧ op1 ∈ s.pendingTLBI ∧ s.pes[1]? = some Pe.reset ∧
    1 ∈ osDomain s op1.issuer ∧ 1 ∉ op1.performedAt ∧ op1.performedAt = [] ∧
    ∀ q ∈ osDomain s op1.issuer, ∀ pe, s.pes[q]? = some pe → pe.accesses = [] := by
  refine ⟨test_pendingState_inv [] (.inl rfl) .allAttr _, rfl, by decide, rfl, by decide, by decide, rfl, ?_⟩
  intro q hq pe hpe
  have hm := List.mem_of_getElem? hpe
  simp only [pendingState, stateOf, List.mem_cons, List.not_mem_nil, or_false] at hm
  rcases hm with rfl | rfl <;> rfl

/-- PerformOnlyOnceAndInTheDomain: a perform step that is taken. -/
theorem test_hyps_performNext : ∃ s', perform 0 1 (pendingState op1 []) = .next s' := ⟨_, rfl⟩

/-- AllAttrCompletionCondition and ExcludeXsCompletionCondition: performed at both PEs, and the complete step is next and is taken. -/
theorem test_hyps_complete (a : Attr) :
    let o : PendingOp := { op1 with performedAt := [0, 1], attr := a }
    let s := pendingState o [.complete 0]
    s.Inv ∧ s.agenda = .complete o.id :: [] ∧ o ∈ s.pendingTLBI ∧ o.attr = a ∧ ∃ s', step s = .next s' := by
  refine ⟨test_pendingState_inv [0, 1] (.inr rfl) a _, rfl, List.mem_cons_self, rfl, _, rfl⟩

/-- EnvironmentGainsAndLosesEntries: e1 is an entry record. -/
theorem test_hyps_gain :
    (stateOf pe1 [.gain 0 e1]).pes[0]? = some pe1 ∧ (stateOf pe1 [.gain 0 e1]).agenda = .gain 0 e1 :: [] ∧
    e1.wf Config.launch = true ∧ (stateOf pe1 [.lose 0 e1]).agenda = .lose 0 e1 :: [] := by decide

/-- EnvironmentMovesOnAccesses: an incomplete access, the last, and a complete one, the first. -/
theorem test_hyps_access :
    let pe : Pe := { pe1 with accesses := [⟨[], true, true, []⟩, ⟨[e1], false, false, []⟩] }
    (stateOf pe []).pes[0]? = some pe ∧
    pe.accesses[0]? = some ⟨[], true, true, []⟩ ∧ pe.accesses[1]? = some ⟨[e1], false, false, []⟩ ∧
    (stateOf pe [.accessBegin 0 [e1] true]).agenda = .accessBegin 0 [e1] true :: [] ∧
    (stateOf pe [.accessUses 0 1 e1]).agenda = .accessUses 0 1 e1 :: [] ∧
    (stateOf pe [.accessComplete 0 1]).agenda = .accessComplete 0 1 :: [] ∧
    (stateOf pe [.accessRetire 0 0]).agenda = .accessRetire 0 0 :: [] := by decide

/-- A PE that has recorded an exception, and another that runs. -/
def faulted : Pe := { pe1Prog with exception := some (.undefined .u3) }

/-- FaultedPeTakesNoStep. -/
theorem test_hyps_faulted :
    (stateOf faulted [.run 0]).pes[0]? = some faulted ∧ faulted.exception = some (.undefined .u3) ∧
    (stateOf faulted [.run 0]).agenda = .run 0 :: [] ∧
    (stateOf faulted []).agenda = [] ∧ (stateOf faulted []).cur = 0 := by decide

/-- ExceptionIsTerminal, NoStepWritesRegistersOrParameters: a step of another agent, with the faulted PE in the state. -/
theorem test_hyps_terminal :
    ∃ s', step (stateOf faulted [.gain 0 e1]) = .next s' ∧ (stateOf faulted [.gain 0 e1]).pes[0]? = some faulted ∧
      ∃ pe', s'.pes[0]? = some pe' ∧ pe'.tlb ≠ faulted.tlb := ⟨_, rfl, rfl, _, rfl, by decide⟩

/-- PendingRecordIsFixedAtIssue, OperationsEndOnlyByCompletion: a step, and the operation before and after it. -/
theorem test_hyps_fixed :
    ∃ s' o', (pendingState op1 [.perform 0 1]).Inv ∧ step (pendingState op1 [.perform 0 1]) = .next s' ∧
      op1 ∈ (pendingState op1 [.perform 0 1]).pendingTLBI ∧ o' ∈ s'.pendingTLBI ∧ o'.id = op1.id :=
  ⟨_, _, test_pendingState_inv [] (.inl rfl) .allAttr _, rfl, by decide, List.mem_cons_self, rfl⟩

/-- CompletedOperationWasPerformedEverywhere: a run of three steps after which the operation is gone. -/
theorem test_hyps_completed :
    ∃ s', (pendingState op1 [.perform 0 1, .perform 0 0, .complete 0]).Inv ∧
      op1 ∈ (pendingState op1 [.perform 0 1, .perform 0 0, .complete 0]).pendingTLBI ∧
      core.run 3 (pendingState op1 [.perform 0 1, .perform 0 0, .complete 0]) = .next s' ∧
      (∀ o' ∈ s'.pendingTLBI, o'.id ≠ op1.id) ∧
      1 ∈ osDomain (pendingState op1 [.perform 0 1, .perform 0 0, .complete 0]) op1.issuer ∧ 1 ∉ op1.performedAt :=
  ⟨_, test_pendingState_inv [] (.inl rfl) .allAttr _, by decide, rfl, by decide, by decide, by decide⟩

/-- FinalStateHasNoInstructionLeft. -/
theorem test_hyps_final :
    let s := { State.reset with agenda := [.run 1] }
    s.isFinal = true ∧ (∀ pe ∈ s.pes, pe.pc.toNat % 4 = 0) ∧ 1 < s.pes.length ∧ s.agenda = .run 1 :: [] := by decide

/-- EveryStepKeepsTheMachineInvariant: a step from a state that meets the invariant. -/
theorem test_hyps_inv :
    ∃ s', (pendingState op1 [.perform 0 1]).Inv ∧ step (pendingState op1 [.perform 0 1]) = .next s' :=
  ⟨_, test_pendingState_inv [] (.inl rfl) .allAttr _, rfl⟩

/-- LaunchedRunsKeepProgramCountersInPlace, LaunchedRunsNeverLackASecurityStateOrIpaSpace: a launch state with a program of one instruction, and its run of one step. -/
theorem test_hyps_launchedRun :
    (stateOf pe1Prog []).launch = true ∧ (stateOf pe1Prog []).cfg.instrBytes = 4 ∧
    (∀ pe ∈ (stateOf pe1Prog []).pes, pe.prog.base.toNat + 4 * pe.prog.len < 2 ^ 64) ∧
    ∃ s', core.run 1 (stateOf pe1Prog []) = .next s' := ⟨by decide, rfl, by decide, _, rfl⟩

/-- EveryStepKeepsProgramCountersInPlace: the first instruction of a program. -/
theorem test_hyps_pcInv : ∃ s', (stateOf pe1Prog []).PcInv ∧ step (stateOf pe1Prog []) = .next s' := by
  refine ⟨_, ⟨rfl, ?_⟩, rfl⟩
  intro pe hpe
  simp only [stateOf, List.mem_cons, List.not_mem_nil, or_false] at hpe
  rcases hpe with rfl | rfl
  · exact ⟨rfl, by decide, 0, by decide, rfl⟩
  · exact ⟨rfl, by decide, 0, by decide, rfl⟩

end Sys2Proof.Tests
end

/-! PROOFS. The family of 10_state.md: the Security state and the IPA space, reset, the outcomes of an execution, and what each agent's move leaves unchanged. -/

namespace Sys2Proof.Machine

/-! ### Security state and IPA space (R30, R92) -/

section SecurityState

variable {cfg : Config} {pe : Pe}

theorem securityStateAtEL1_of_noEL3 (h3 : cfg.haveEL3 = false) :
    securityStateAtEL1 cfg pe = some (fixedSecurityState cfg.ssNoEL3) := by
  simp [securityStateAtEL1, h3]

theorem securityStateAtEL1_of_noRME (h3 : cfg.haveEL3 = true) (hr : cfg.featRME = false) :
    securityStateAtEL1 cfg pe = some (if pe.scrNS then .nonSecure else .secure) := by
  cases hns : pe.scrNS <;> simp [securityStateAtEL1, h3, hr, hns]

/-- With FEAT_RME, the four values of SCR_EL3.{NSE, NS}. -/
theorem securityStateAtEL1_of_RME (h3 : cfg.haveEL3 = true) (hr : cfg.featRME = true) :
    (pe.scrNSE = false → pe.scrNS = false → securityStateAtEL1 cfg pe = some .secure) ∧
    (pe.scrNSE = false → pe.scrNS = true → securityStateAtEL1 cfg pe = some .nonSecure) ∧
    (pe.scrNSE = true → pe.scrNS = true → securityStateAtEL1 cfg pe = some .realm) ∧
    (pe.scrNSE = true → pe.scrNS = false → securityStateAtEL1 cfg pe = none) := by
  refine ⟨?_, ?_, ?_, ?_⟩ <;> intro hnse hns <;> simp [securityStateAtEL1, h3, hr, hnse, hns]

theorem fixedSecurityState_eq_ite (f : FixedState) :
    fixedSecurityState f = if f = .secure then .secure else .nonSecure := by
  cases f <;> rfl

theorem ipaSpaceOf_secure_of_meaning (h : cfg.featRME = true ∨ cfg.featSEL2 = true) (ns : Bool) :
    ipaSpaceOf cfg .secure ns = some (if ns then .nonSecureIPA else .secureIPA, false) := by
  simp [ipaSpaceOf, h]

theorem ipaSpaceOf_secure_eq_none (hr : cfg.featRME = false) (hs : cfg.featSEL2 = false) (ns : Bool) :
    ipaSpaceOf cfg .secure ns = none := by
  simp [ipaSpaceOf, hr, hs]

end SecurityState

/-- Settles O29, from the table of each of the two functions. -/
theorem securityStateAndIpaSpaceTable : Obligations.SecurityStateAndIpaSpaceTable := by
  refine ⟨fun cfg pe h3 => ?_, fun cfg pe => securityStateAtEL1_of_noRME,
    fun cfg pe => securityStateAtEL1_of_RME,
    fun cfg ns => ⟨rfl, rfl, fun h => ipaSpaceOf_secure_of_meaning h ns,
      fun hr hs => ipaSpaceOf_secure_eq_none hr hs ns⟩⟩
  rw [securityStateAtEL1_of_noEL3 h3, fixedSecurityState_eq_ite]

/-! ### Executions that reach the invalidation (R100, R101) -/

section ReachInvalidation

variable {s : State} {pe : Pe} {a : Attr} {t t2 : Nat}

theorem byExceptionLevel_eq_invalidate
    (hel : pe.el = .el2 ∨ (pe.el = .el3 ∧ el2Enabled s.cfg pe = true)) :
    byExceptionLevel a t t2 pe s = invalidate a t t2 pe s := by
  rcases hel with hel | ⟨hel, h2⟩
  · simp [byExceptionLevel, hel]
  · simp [byExceptionLevel, hel, h2]

/-- The base variant where none of its tests stops it. -/
theorem exec_base_eq_invalidate (hpe : s.pes[s.cur]? = some pe) (ht : pairOf s.cfg t = some t2)
    (hd : s.cfg.featD128 = true) (hel : pe.el = .el2 ∨ (pe.el = .el3 ∧ el2Enabled s.cfg pe = true)) :
    exec (.tlbipIpas2le1os t) s = invalidate .allAttr t t2 pe s := by
  rw [← byExceptionLevel_eq_invalidate hel]
  simp [exec, execTlbipIpas2le1os, withCur_of hpe, ht, hd]

/-- The nXS variant where none of its tests stops it. -/
theorem exec_nxs_eq_invalidate (hpe : s.pes[s.cur]? = some pe) (ht : pairOf s.cfg t = some t2)
    (hd : s.cfg.featD128 = true) (hx : s.cfg.featXS = true)
    (hel : pe.el = .el2 ∨ (pe.el = .el3 ∧ el2Enabled s.cfg pe = true)) :
    exec (.tlbipIpas2le1osnxs t) s = invalidate .excludeXS t t2 pe s := by
  rw [← byExceptionLevel_eq_invalidate hel]
  simp [exec, execTlbipIpas2le1osnxs, withCur_of hpe, ht, hd, hx]

theorem invalidate_eq_securityStateReserved (h : securityStateAtEL1 s.cfg pe = none) :
    invalidate a t t2 pe s = .refused .securityStateReserved := by
  simp [invalidate, h]

theorem invalidate_eq_noIpaSpace {ss : SecurityState} (hss : securityStateAtEL1 s.cfg pe = some ss)
    (h : ipaSpaceOf s.cfg ss (nsBit (operandOf pe t t2)) = none) :
    invalidate a t t2 pe s = .refused .noIpaSpace := by
  simp [invalidate, hss, tlbipIpas2, h]

end ReachInvalidation

/-- Settles O15: the invalidation is reached, and one of the two functions of O29's table answers none. -/
theorem statesWithoutAMeaningAreRefused : Obligations.StatesWithoutAMeaningAreRefused := by
  intro s pe t t2 hpe ht hd hel
  rw [exec_base_eq_invalidate hpe ht hd hel]
  refine ⟨fun h3 hr hnse hns => ?_, fun hr hs hss => ?_⟩
  · obtain ⟨-, -, -, hreserved⟩ := securityStateAtEL1_of_RME (pe := pe) h3 hr
    have hnone := hreserved hnse hns
    refine ⟨invalidate_eq_securityStateReserved hnone, fun hx => ?_⟩
    rw [exec_nxs_eq_invalidate hpe ht hd hx hel]
    exact invalidate_eq_securityStateReserved hnone
  · have hnone := ipaSpaceOf_secure_eq_none hr hs (nsBit (operandOf pe t t2))
    refine ⟨invalidate_eq_noIpaSpace hss hnone, fun hx => ?_⟩
    rw [exec_nxs_eq_invalidate hpe ht hd hx hel]
    exact invalidate_eq_noIpaSpace hss hnone

/-! ### The outcomes of an execution (R38) -/

theorem invalidating_eq_true {cfg : Config} {pe : Pe} (hd : cfg.featD128 = true)
    (hel : pe.el = .el2 ∨ (pe.el = .el3 ∧ el2Enabled cfg pe = true)) : invalidating cfg pe = true := by
  rcases hel with hel | ⟨hel, h2⟩
  · simp [invalidating, hd, hel]
  · simp [invalidating, hd, hel, h2]

/-- Issuing an operation and advancing the program counter, as the list of PEs with one replaced. -/
theorem advancePc_addPending_eq {s : State} {pe : Pe} (h : s.pes[s.cur]? = some pe)
    (r : TlbiRecord) (a : Attr) :
    advancePc (addPending r a s) =
      { s with
        pes := s.pes.set s.cur { pe with pc := pe.pc + BitVec.ofNat 64 s.cfg.instrBytes }
        pendingTLBI := s.pendingTLBI ++ [⟨s.nextOp, s.cur, r, a, [], []⟩]
        nextOp := s.nextOp + 1 } :=
  advancePc_eq (addPending r a s) h

/-- Settles O20: the four cases of `exec_cases`, each with its next state written out. -/
theorem execHasFourOutcomes : Obligations.ExecHasFourOutcomes := by
  intro i s s' h
  obtain ⟨pe, hpe, hcases⟩ := exec_cases h
  refine ⟨pe, hpe, ?_⟩
  rcases hcases with ⟨c, rfl⟩ | ⟨rfl, hel⟩ | ⟨rfl, hel⟩ | ⟨a, t2, hd, hel, -, hinv⟩
  · exact .inl ⟨c, takeException_eq _ s hpe⟩
  · exact .inr (.inl ⟨takeException_eq _ s hpe, hel⟩)
  · exact .inr (.inr (.inl ⟨advancePc_eq s hpe, hel⟩))
  · obtain ⟨ss, space, nsRes0, -, -, rfl⟩ := invalidate_eq_next hinv
    exact .inr (.inr (.inr ⟨invalidating_eq_true hd hel, _, a, advancePc_addPending_eq hpe _ a⟩))

/-! ### What every move leaves unchanged -/

/-- The environment changes nothing of a PE but its TLB and its accesses. -/
theorem EnvChange.eq_with {cfg : Config} {f : Pe → Pe} (h : EnvChange cfg f) (pe : Pe) :
    f pe = { pe with tlb := (f pe).tlb, accesses := (f pe).accesses } := by
  cases h with
  | gain e he hf => rw [hf]
  | lose e hf => rw [hf]
  | access g hf hg => rw [hf]

/-- No step changes anything of a PE but its program counter, its TLB, its accesses and its recorded exception. -/
theorem step_pe_eq_with {s s' : State} {q : Nat} {pe pe' : Pe} (h : step s = .next s')
    (hpe : s.pes[q]? = some pe) (hpe' : s'.pes[q]? = some pe') :
    pe' = { pe with
      pc := pe'.pc, tlb := pe'.tlb, accesses := pe'.accesses, exception := pe'.exception } := by
  obtain ⟨-, -, hpes⟩ := step_pes h
  obtain ⟨pe1, hpe1, hcases⟩ := hpes q pe hpe
  obtain rfl : pe' = pe1 := Option.some.inj (hpe'.symm.trans hpe1)
  rcases hcases with rfl | ⟨v, e, rfl, -⟩ | ⟨o, rest, -, -, rfl⟩ | ⟨f, ev, rest, -, hf, -, rfl⟩
  · rfl
  · rfl
  · rfl
  · rw [hf.eq_with pe]

/-- Settles O45, from the fields of a PE that a step can write. -/
theorem noStepWritesRegistersOrParameters : Obligations.NoStepWritesRegistersOrParameters := by
  intro s s' h
  obtain ⟨hcfg, hlen, -⟩ := step_pes h
  refine ⟨hcfg, hlen, fun q pe pe' hpe hpe' => ?_⟩
  rw [step_pe_eq_with h hpe hpe']
  exact ⟨rfl, rfl, rfl, rfl, rfl, rfl, rfl, rfl⟩

/-! ### The default pairing and the zero operand (R22, R75, R88) -/

theorem pairOf_launch {t : Nat} (h : t < 32) : pairOf Config.launch t = defaultPair t := by
  simp [pairOf, Config.launch, h]

theorem operandOf_31_31 (pe : Pe) : operandOf pe 31 31 = 0 := by simp [operandOf]

/-- Settles O25. -/
theorem defaultPairingAndOmittedOperands : Obligations.DefaultPairingAndOmittedOperands :=
  ⟨fun _ ht => pairOf_launch ht, rfl, fun pe => ⟨readX_31 pe, operandOf_31_31 pe⟩⟩

/-! ### Which entries a perform step leaves (R34, R97) -/

theorem entryMatches_stage {cfg : Config} {r : TlbiRecord} {e : TlbEntry}
    (h : entryMatches cfg r e = true) : e.stage = .s2only := by
  simp only [entryMatches, Bool.and_eq_true, beq_iff_eq] at h
  tauto

theorem mem_performAtPe_tlb {cfg : Config} {o : PendingOp} {pe : Pe} {e : TlbEntry} :
    e ∈ (performAtPe cfg o pe).tlb ↔ e ∈ pe.tlb ∧ entryMatches cfg o.record e = false := by
  simp [performAtPe]

/-- Settles O34: a match is stage 2 only. -/
theorem combinedEntriesNeverMatch : Obligations.CombinedEntriesNeverMatch := by
  intro cfg o pe e hstage he
  refine mem_performAtPe_tlb.2 ⟨he, Bool.eq_false_iff.2 fun hm => ?_⟩
  have hs2 := entryMatches_stage hm
  rcases hstage with h | h <;> simp [hs2] at h

/-! ### The environment's moves on accesses (R36) -/

section AccessMoves

variable {s : State} {q k : Nat} {pe : Pe} {a : Access}

/-- A step with a move listed is that move. -/
theorem step_of_agenda {ev : Event} {rest : List Event} (h : s.agenda = ev :: rest) :
    step s = handleEvent ev { s with agenda := rest } := by
  simp [step, h]

theorem atPe_of (hpe : s.pes[q]? = some pe) (f : Pe → Pe) :
    atPe q s f = .next { s with pes := s.pes.set q (f pe) } := by
  rw [← State.modifyPe_eq_set s q f hpe]
  exact if_pos (List.getElem?_eq_some_iff.1 hpe).1

/-- A move on an access that is allowed of it. -/
theorem onAccess_of {ok : Access → Bool} (hpe : s.pes[q]? = some pe) (ha : pe.accesses[k]? = some a)
    (hok : ok a = true) (f : Pe → Pe) :
    onAccess q k ok f s = .next { s with pes := s.pes.set q (f pe) } := by
  rw [← State.modifyPe_eq_set s q f hpe]
  simp [onAccess, hpe, ha, hok]

/-- A move on an access that is not allowed of it answers no next state. -/
theorem onAccess_ne_next {ok : Access → Bool} (hpe : s.pes[q]? = some pe)
    (ha : pe.accesses[k]? = some a) (hok : ok a = false) (f : Pe → Pe) (s' : State) :
    onAccess q k ok f s ≠ .next s' := by
  simp [onAccess, hpe, ha, hok]

/-- Changing an access in place, as the list of accesses with one replaced. -/
theorem accesses_modify_eq_set (ha : pe.accesses[k]? = some a) (f : Access → Access) :
    pe.accesses.modify k f = pe.accesses.set k (f a) := by
  simp [List.modify_eq_set_getElem?, ha]

theorem useEntry_eq (e : TlbEntry) (a : Access) :
    useEntry e a =
      { a with usedEntries := if e ∈ a.usedEntries then a.usedEntries else a.usedEntries ++ [e] } := by
  by_cases h : e ∈ a.usedEntries <;> simp [useEntry, h]

theorem beginAccess_of (hpe : s.pes[q]? = some pe) (used : List TlbEntry) (xs : Bool) :
    beginAccess q used xs s = .next { s with
      pes := s.pes.set q { pe with accesses := pe.accesses ++ [⟨used, xs, false, []⟩] } } :=
  atPe_of hpe _

theorem extendAccess_of_incomplete (hpe : s.pes[q]? = some pe) (ha : pe.accesses[k]? = some a)
    (hc : a.complete = false) (e : TlbEntry) :
    extendAccess q k e s = .next { s with
      pes := s.pes.set q { pe with
        accesses := pe.accesses.set k
          { a with usedEntries := if e ∈ a.usedEntries then a.usedEntries else a.usedEntries ++ [e] } } } := by
  rw [← useEntry_eq, ← accesses_modify_eq_set ha]
  exact onAccess_of hpe ha (by simp [hc]) _

theorem extendAccess_ne_next_of_complete (hpe : s.pes[q]? = some pe)
    (ha : pe.accesses[k]? = some a) (hc : a.complete = true) (e : TlbEntry) (s' : State) :
    extendAccess q k e s ≠ .next s' :=
  onAccess_ne_next hpe ha (by simp [hc]) _ s'

theorem finishAccess_of_incomplete (hpe : s.pes[q]? = some pe) (ha : pe.accesses[k]? = some a)
    (hc : a.complete = false) :
    finishAccess q k s = .next { s with
      pes := s.pes.set q { pe with accesses := pe.accesses.set k { a with complete := true } } } := by
  rw [← finish, ← accesses_modify_eq_set ha]
  exact onAccess_of hpe ha (by simp [hc]) _

theorem finishAccess_ne_next_of_complete (hpe : s.pes[q]? = some pe)
    (ha : pe.accesses[k]? = some a) (hc : a.complete = true) (s' : State) :
    finishAccess q k s ≠ .next s' :=
  onAccess_ne_next hpe ha (by simp [hc]) _ s'

theorem retireAccess_of_complete (hpe : s.pes[q]? = some pe) (ha : pe.accesses[k]? = some a)
    (hc : a.complete = true) :
    retireAccess q k s = .next { s with
      pes := s.pes.set q { pe with accesses := pe.accesses.eraseIdx k } } :=
  onAccess_of hpe ha hc _

theorem retireAccess_ne_next_of_incomplete (hpe : s.pes[q]? = some pe)
    (ha : pe.accesses[k]? = some a) (hc : a.complete = false) (s' : State) :
    retireAccess q k s ≠ .next s' :=
  onAccess_ne_next hpe ha hc _ s'

end AccessMoves

/-- Settles O42: each listed move is the operation of its name at the state with the rest of the agenda. -/
theorem environmentMovesOnAccesses : Obligations.EnvironmentMovesOnAccesses := by
  intro s q pe rest hpe
  have hpe' : ({ s with agenda := rest } : State).pes[q]? = some pe := hpe
  refine ⟨fun used xs hag => ?begins, fun k a e hag ha => ?uses, fun k a hag ha => ?completes,
    fun k a hag ha => ?retires⟩
  all_goals rw [step_of_agenda hag]
  case begins => exact beginAccess_of hpe' used xs
  case uses =>
    exact ⟨fun hc => extendAccess_of_incomplete hpe' ha hc e,
      fun hc => extendAccess_ne_next_of_complete hpe' ha hc e⟩
  case completes =>
    exact ⟨finishAccess_of_incomplete hpe' ha, finishAccess_ne_next_of_complete hpe' ha⟩
  case retires =>
    exact ⟨retireAccess_of_complete hpe' ha, retireAccess_ne_next_of_incomplete hpe' ha⟩

/-! ### Reset (R39) -/

theorem eq_reset_of_mem {pe : Pe} (h : pe ∈ State.reset.pes) : pe = Pe.reset := by
  simpa [State.reset] using h

theorem readX_reset (r : Nat) : readX Pe.reset r = 0 := by
  simp [readX, Pe.reset]

/-- Settles O57: every PE is `Pe.reset`, whose fields are given. -/
theorem resetValues : Obligations.ResetValues := by
  refine ⟨rfl, fun pe hpe => ?_⟩
  obtain rfl := eq_reset_of_mem hpe
  exact ⟨rfl, rfl, rfl, readX_reset, rfl, rfl, rfl, rfl, rfl, rfl, rfl⟩

end Sys2Proof.Machine

/-! PROOFS. The family of 20_memory.md: the domain, a bad program counter, the completion of an operation, the environment's moves on TLBs, the two variants, and the maintenance promise. -/

namespace Sys2Proof.Machine

/-! ### The maintenance promise over every run (R66) -/

/-- The part of the invariant that tells operations apart: the numbers of the pending operations were given out, once each (40 R104). -/
structure State.NumbersDistinct (s : State) : Prop where
  distinct : (s.pendingTLBI.map (·.id)).Nodup
  numbered : ∀ o ∈ s.pendingTLBI, o.id < s.nextOp

theorem State.Inv.numbersDistinct {s : State} (hI : s.Inv) : s.NumbersDistinct :=
  ⟨hI.idsDistinct, fun o ho => (hI.ops o ho).numbered⟩

/-- A perform step changes no number. -/
theorem map_id_performedOp (s : State) (o : PendingOp) (q : Nat) (l : List PendingOp) :
    (l.map (fun o' => if o'.id = o.id then performedOp s q o' else o')).map (·.id) = l.map (·.id) := by
  rw [List.map_map]
  refine List.map_congr_left fun o' _ => ?_
  by_cases h : o'.id = o.id <;> simp [h]

/-- A new operation has a number of its own. -/
theorem State.NumbersDistinct.ne_nextOp {s : State} (hN : s.NumbersDistinct) :
    s.nextOp ∉ s.pendingTLBI.map (·.id) := by
  intro hm
  obtain ⟨o, ho, hid⟩ := List.mem_map.1 hm
  exact (hN.numbered o ho).ne hid

theorem step_keeps_numbersDistinct {s s' : State} (hN : s.NumbersDistinct)
    (h : step s = .next s') : s'.NumbersDistinct := by
  have hlt : ∀ n ∈ s.pendingTLBI.map (·.id), n < s.nextOp := by
    simpa using hN.numbered
  suffices hids : (s'.pendingTLBI.map (·.id)).Nodup ∧
      ∀ n ∈ s'.pendingTLBI.map (·.id), n < s'.nextOp from
    ⟨hids.1, fun o ho => hids.2 o.id (List.mem_map_of_mem ho)⟩
  rcases step_ops h with ⟨hp, hn⟩ | ⟨_, _, _, _, _, _, _, -, -, -, hp, hn⟩ |
    ⟨o, q, _, -, -, -, -, hn, hp⟩ | ⟨o, _, -, -, -, hn, hp⟩ <;> rw [hp, hn]
  · exact ⟨hN.distinct, hlt⟩
  · rw [List.map_append]
    refine ⟨hN.distinct.append (List.nodup_singleton _) (by simpa using hN.ne_nextOp), ?_⟩
    intro n hm
    rcases List.mem_append.1 hm with hm | hm
    · exact (hlt n hm).trans (Nat.lt_succ_self _)
    · obtain rfl : n = s.nextOp := by simpa using hm
      exact Nat.lt_succ_self _
  · rw [map_id_performedOp]
    exact ⟨hN.distinct, hlt⟩
  · have hsub := (List.filter_sublist (p := fun o' : PendingOp => o'.id != o.id)
      (l := s.pendingTLBI)).map (·.id)
    exact ⟨hN.distinct.sublist hsub, fun n hm => hlt n (hsub.subset hm)⟩

/-- What a step does to one pending operation: it leaves it, performs it at one more PE, or completes it. -/
theorem step_op {s s' : State} {o : PendingOp} (hN : s.NumbersDistinct) (ho : o ∈ s.pendingTLBI)
    (h : step s = .next s') :
    o ∈ s'.pendingTLBI ∨
    (∃ q rest, s.agenda = .perform o.id q :: rest ∧ performedOp s q o ∈ s'.pendingTLBI) ∨
    (∃ rest, s.agenda = .complete o.id :: rest ∧ completeEnabled s o = true ∧
      ∀ o' ∈ s'.pendingTLBI, o'.id ≠ o.id) := by
  rcases step_ops h with ⟨hp, -⟩ | ⟨_, _, _, _, _, _, _, -, -, -, hp, -⟩ |
    ⟨o₁, q, rest, ho₁, hag, -, -, -, hp⟩ | ⟨o₁, rest, ho₁, hag, hc, -, hp⟩
  · exact .inl (hp ▸ ho)
  · exact .inl (hp ▸ List.mem_append_left _ ho)
  · by_cases hid : o.id = o₁.id
    · refine .inr (.inl ⟨q, rest, hid ▸ hag, hp ▸ List.mem_map.2 ⟨o, ho, if_pos hid⟩⟩)
    · exact .inl (hp ▸ List.mem_map.2 ⟨o, ho, if_neg hid⟩)
  · by_cases hid : o.id = o₁.id
    · obtain rfl := op_eq_of_id hN.distinct ho ho₁ hid
      rw [hp]
      exact .inr (.inr ⟨rest, hag, hc, fun o' ho' => bne_iff_ne.1 (List.mem_filter.1 ho').2⟩)
    · exact .inl (hp ▸ List.mem_filter.2 ⟨ho, by simpa using hid⟩)

/-- Right after a perform step of an operation, the PE's TLB holds no entry the operation matches (R97). -/
theorem entryMatches_eq_false_of_performed {s s' : State} {o : PendingOp} {q : Nat}
    {rest : List Event} (hN : s.NumbersDistinct) (ho : o ∈ s.pendingTLBI)
    (hag : s.agenda = .perform o.id q :: rest) (h : step s = .next s') :
    ∀ pe, s'.pes[q]? = some pe → ∀ e ∈ pe.tlb, entryMatches s.cfg o.record e = false := by
  rw [step_of_agenda hag] at h
  obtain ⟨o₁, ho₁, hid, hq, -, rfl⟩ := perform_eq_next h
  obtain rfl := op_eq_of_id hN.distinct ho₁ ho hid
  intro pe' hpe' e he
  obtain ⟨pe, hpe⟩ : ∃ pe, s.pes[q]? = some pe := ⟨_, List.getElem?_eq_getElem (osDomain_lt hq)⟩
  have hsame := State.modifyPe_get_same { s with agenda := rest } q (performAtPe s.cfg o₁) hpe
  obtain rfl := Option.some.inj (hsame.symm.trans hpe')
  exact (mem_performAtPe_tlb.1 he).2

/-- Some step of the run of `k` steps performs the operation at `q`, and leaves no match in the TLB there. -/
def PerformedInRun (k : Nat) (s : State) (o : PendingOp) (q : Nat) : Prop :=
  ∃ (j : Nat) (sj sj' : State) (rest : List Event),
    j < k ∧ core.run j s = .next sj ∧ sj.agenda = .perform o.id q :: rest ∧
    core.run (j + 1) s = .next sj' ∧
    ∀ pe, sj'.pes[q]? = some pe → ∀ e ∈ pe.tlb, entryMatches s.cfg o.record e = false

/-- The first step of the run performs it. -/
theorem PerformedInRun.first {k : Nat} {s s₁ : State} {o : PendingOp} {q : Nat} {rest : List Event}
    (hN : s.NumbersDistinct) (ho : o ∈ s.pendingTLBI) (h : step s = .next s₁)
    (hag : s.agenda = .perform o.id q :: rest) : PerformedInRun (k + 1) s o q :=
  ⟨0, s, s₁, rest, k.succ_pos, rfl, hag, run_succ h,
    entryMatches_eq_false_of_performed hN ho hag h⟩

/-- A later step of the run performs it. -/
theorem PerformedInRun.later {k : Nat} {s s₁ : State} {o o₁ : PendingOp} {q : Nat}
    (h : step s = .next s₁) (hid : o₁.id = o.id) (hrec : o₁.record = o.record)
    (hlater : PerformedInRun k s₁ o₁ q) : PerformedInRun (k + 1) s o q := by
  obtain ⟨j, sj, sj', rest, hj, hrun, hag, hrun', hnone⟩ := hlater
  obtain ⟨hcfg, -, -⟩ := step_pes h
  rw [hcfg, hrec] at hnone
  exact ⟨j + 1, sj, sj', rest, Nat.succ_lt_succ hj, (run_succ h).trans hrun, hid ▸ hag,
    (run_succ h).trans hrun', hnone⟩

theorem mem_performedAt_of_completeEnabled {s : State} {o : PendingOp} {q : Nat}
    (h : completeEnabled s o = true) (hq : q ∈ osDomain s o.issuer) : q ∈ o.performedAt := by
  simp only [completeEnabled, performedEverywhere, Bool.and_eq_true, List.all_eq_true,
    List.contains_iff_mem] at h
  exact h.1.1 q hq

/-- An operation that is gone after a run was performed in it at each PE of the domain where it had not been. -/
theorem performedInRun_of_gone (k : Nat) {s s' : State} {o : PendingOp} {q : Nat}
    (hN : s.NumbersDistinct) (ho : o ∈ s.pendingTLBI) (hrun : core.run k s = .next s')
    (hgone : ∀ o' ∈ s'.pendingTLBI, o'.id ≠ o.id) (hq : q ∈ osDomain s o.issuer)
    (hn : q ∉ o.performedAt) : PerformedInRun k s o q := by
  induction k generalizing s o with
  | zero =>
    obtain rfl : s = s' := Host.Outcome.next.inj hrun
    exact absurd rfl (hgone o ho)
  | succ k ih =>
    obtain ⟨s₁, hstep, hrun⟩ := run_succ_eq_next hrun
    obtain ⟨hcfg, hlen, -⟩ := step_pes hstep
    have hN₁ := step_keeps_numbersDistinct hN hstep
    have hq₁ : q ∈ osDomain s₁ o.issuer := osDomain_congr hcfg hlen _ ▸ hq
    rcases step_op hN ho hstep with hkept | ⟨q', rest, hag, hperf⟩ | ⟨rest, -, hc, -⟩
    · exact .later hstep rfl rfl (ih hN₁ hkept hrun hgone hq₁ hn)
    · by_cases hqq : q = q'
      · subst hqq
        exact .first hN ho hstep hag
      · have hn' : q ∉ (performedOp s q' o).performedAt := by simp [hn, hqq]
        exact .later (o₁ := performedOp s q' o) hstep rfl rfl (ih hN₁ hperf hrun hgone hq₁ hn')
    · exact absurd (mem_performedAt_of_completeEnabled hc hq) hn

/-- Settles O49, by induction on the number of steps: each step leaves the operation, performs it at one PE, or completes it. -/
theorem completedOperationWasPerformedEverywhere :
    Obligations.CompletedOperationWasPerformedEverywhere :=
  fun k _ _ _ hI ho hrun hgone _ hq hn =>
    performedInRun_of_gone k hI.numbersDistinct ho hrun hgone hq hn

/-! ### When an operation completes (R59, R60) -/

theorem waitsFor_iff {o : PendingOp} {q : Nat} {a : Access} :
    waitsFor o q a = true ↔ usesOld o q a = true ∧ (o.attr = .excludeXS → a.xs = false) := by
  cases h : o.attr <;> simp [waitsFor, h]

/-- The completion condition of either variant, in a state that meets the invariant. -/
theorem completeEnabled_iff {s : State} (hI : s.Inv) {o : PendingOp} (ho : o ∈ s.pendingTLBI) :
    completeEnabled s o = true ↔
      (∀ q ∈ osDomain s o.issuer, q ∈ o.performedAt) ∧
      ∀ q ∈ osDomain s o.issuer, ∀ pe, s.pes[q]? = some pe → ∀ a ∈ pe.accesses,
        (∃ e ∈ a.usedEntries, (q, e) ∈ o.matched) → (o.attr = .excludeXS → a.xs = false) →
          a.complete = true := by
  simp only [completeEnabled, Bool.and_eq_true, List.all_eq_true, performedEverywhere_iff hI ho,
    accessesDone_iff]
  refine and_congr_right fun _ => forall₂_congr fun q _ => forall₂_congr fun pe hpe =>
    forall₂_congr fun a ha => ?_
  rw [waitsFor_iff, usesOld_iff hI ho hpe ha, and_imp]

/-- Taking an operation away by its number takes it, and no other, away. -/
theorem filter_id_ne_eq {l : List PendingOp} (h : (l.map (·.id)).Nodup) {o : PendingOp} (ho : o ∈ l) :
    l.filter (fun o' => o'.id != o.id) = l.filter (fun o' => o' ≠ o) := by
  refine List.filter_congr fun o' ho' => ?_
  have hiff : o'.id = o.id ↔ o' = o := ⟨op_eq_of_id h ho' ho, fun e => e ▸ rfl⟩
  rw [Bool.eq_iff_iff, bne_iff_ne, decide_eq_true_iff]
  exact not_congr hiff

/-- The complete step of a pending operation. -/
theorem step_complete {s : State} (hI : s.Inv) {o : PendingOp} {rest : List Event}
    (ho : o ∈ s.pendingTLBI) (hag : s.agenda = .complete o.id :: rest) :
    step s = if completeEnabled s o = true then
        .next { s with agenda := rest, pendingTLBI := s.pendingTLBI.filter (fun o' => o' ≠ o) }
      else .refused .eventNotEnabled := by
  rw [step_of_agenda hag, ← filter_id_ne_eq hI.idsDistinct ho]
  simp only [handleEvent, completeOp, find_op hI.idsDistinct ho]
  rfl

/-- Completing is possible exactly under the completion condition, and takes the operation away. -/
theorem step_complete_next_iff {s s' : State} (hI : s.Inv) {o : PendingOp} {rest : List Event}
    (ho : o ∈ s.pendingTLBI) (hag : s.agenda = .complete o.id :: rest) :
    step s = .next s' ↔ completeEnabled s o = true ∧
      s' = { s with agenda := rest, pendingTLBI := s.pendingTLBI.filter (fun o' => o' ≠ o) } := by
  rw [step_complete hI ho hag]
  by_cases hc : completeEnabled s o = true
  · simp [hc, eq_comm]
  · simp [hc]

theorem exists_step_complete_iff {s : State} (hI : s.Inv) {o : PendingOp} {rest : List Event}
    (ho : o ∈ s.pendingTLBI) (hag : s.agenda = .complete o.id :: rest) :
    (∃ s', step s = .next s') ↔ completeEnabled s o = true := by
  simp only [step_complete_next_iff hI ho hag, exists_and_left, exists_eq, and_true]

/-- Settles O38: an `AllAttr` operation waits whatever the XS bit of the access. -/
theorem allAttrCompletionCondition : Obligations.AllAttrCompletionCondition := by
  intro s o rest hI hag ho hattr
  refine ⟨?_, fun s' h => ((step_complete_next_iff hI ho hag).1 h).2⟩
  rw [exists_step_complete_iff hI ho hag, completeEnabled_iff hI ho]
  simp [hattr]

/-- Settles O39: an `ExcludeXS` operation waits only where the XS bit of the access is 0. -/
theorem excludeXsCompletionCondition : Obligations.ExcludeXsCompletionCondition := by
  intro s o rest hI hag ho hattr
  refine ⟨?_, fun s' h => ((step_complete_next_iff hI ho hag).1 h).2⟩
  rw [exists_step_complete_iff hI ho hag, completeEnabled_iff hI ho]
  simp [hattr]

/-! ### The environment's moves on TLBs (R67) -/

section TlbMoves

variable {s : State} {q : Nat} {pe : Pe} {e : TlbEntry}

theorem gainEntry_of (hpe : s.pes[q]? = some pe) (he : e.wf s.cfg = true) :
    gainEntry q e s = .next { s with
      pes := s.pes.set q { pe with tlb := if pe.tlb.contains e then pe.tlb else pe.tlb ++ [e] } } := by
  rw [gainEntry, if_pos he]
  exact atPe_of hpe _

theorem loseEntry_of (hpe : s.pes[q]? = some pe) (e : TlbEntry) :
    loseEntry q e s = .next { s with
      pes := s.pes.set q { pe with tlb := pe.tlb.filter (fun e' => e' != e) } } :=
  atPe_of hpe _

/-- What the TLB holds after a gain. -/
theorem mem_gained {tlb : List TlbEntry} {e e' : TlbEntry} :
    e' ∈ (if tlb.contains e then tlb else tlb ++ [e]) ↔ e' ∈ tlb ∨ e' = e := by
  split
  · rename_i hc
    have he : e ∈ tlb := List.contains_iff_mem.1 hc
    exact ⟨.inl, fun h => h.elim id fun h => h ▸ he⟩
  · simp

end TlbMoves

/-- Settles O41: each move is the operation of its name at the state with the rest of the agenda. -/
theorem environmentGainsAndLosesEntries : Obligations.EnvironmentGainsAndLosesEntries := by
  intro s q pe e rest hpe
  have hpe' : ({ s with agenda := rest } : State).pes[q]? = some pe := hpe
  refine ⟨fun hag he => ?_, fun hag => ?_⟩ <;> rw [step_of_agenda hag]
  · exact ⟨_, gainEntry_of hpe' he, fun e' => mem_gained⟩
  · exact ⟨_, loseEntry_of hpe' e, fun e' => by simp⟩

/-! ### The two variants (R61) -/

/-- The state `s1` with `ExcludeXS` in each operation that `s` does not have. -/
def excludeXsInAdded (s s1 : State) : State :=
  { s1 with
    pendingTLBI := s.pendingTLBI ++
      (s1.pendingTLBI.drop s.pendingTLBI.length).map (fun o => { o with attr := .excludeXS }) }

theorem excludeXsInAdded_of_pendingTLBI_eq {s s1 : State} (h : s1.pendingTLBI = s.pendingTLBI) :
    excludeXsInAdded s s1 = s1 := by
  simp [excludeXsInAdded, ← h]

theorem excludeXsInAdded_issued (s : State) (r : TlbiRecord) :
    excludeXsInAdded s (advancePc (addPending r .allAttr s)) =
      advancePc (addPending r .excludeXS s) := by
  simp [excludeXsInAdded, addPending, advancePc, State.modifyPe]

/-- An outcome that adds no operation is the same for both variants. -/
theorem next_eq_mapNext_excludeXsInAdded {s s1 : State} (h : s1.pendingTLBI = s.pendingTLBI) :
    (.next s1 : Host.Outcome State Fault Refusal) = mapNext (excludeXsInAdded s) (.next s1) := by
  rw [mapNext, andThen_next, excludeXsInAdded_of_pendingTLBI_eq h]

theorem invalidate_excludeXS_eq (t t2 : Nat) (pe : Pe) (s : State) :
    invalidate .excludeXS t t2 pe s =
      mapNext (excludeXsInAdded s) (invalidate .allAttr t t2 pe s) := by
  unfold invalidate tlbipIpas2
  cases securityStateAtEL1 s.cfg pe with
  | none => rfl
  | some ss =>
    cases hsp : ipaSpaceOf s.cfg ss (nsBit (operandOf pe t t2)) with
    | none => simp [hsp, mapNext]
    | some x =>
      simp only [hsp]
      split
      · rfl
      · simp only [mapNext, andThen_next, excludeXsInAdded_issued]

theorem byExceptionLevel_excludeXS_eq (t t2 : Nat) (pe : Pe) (s : State) :
    byExceptionLevel .excludeXS t t2 pe s =
      mapNext (excludeXsInAdded s) (byExceptionLevel .allAttr t t2 pe s) := by
  unfold byExceptionLevel
  cases pe.el with
  | el0 => exact next_eq_mapNext_excludeXsInAdded rfl
  | el1 =>
    cases el2Enabled s.cfg pe && hcrNV s.cfg pe with
    | false => exact next_eq_mapNext_excludeXsInAdded rfl
    | true => exact next_eq_mapNext_excludeXsInAdded rfl
  | el2 => exact invalidate_excludeXS_eq t t2 pe s
  | el3 =>
    cases el2Enabled s.cfg pe with
    | false => exact next_eq_mapNext_excludeXsInAdded rfl
    | true => exact invalidate_excludeXS_eq t t2 pe s

/-- Settles O12: with FEAT_XS the tests of the two variants agree, and so do the invalidations but for what they issue. -/
theorem variantsPerformTheSameInvalidation : Obligations.VariantsPerformTheSameInvalidation := by
  intro s t hxs
  change execTlbipIpas2le1osnxs t s = mapNext (excludeXsInAdded s) (execTlbipIpas2le1os t s)
  unfold execTlbipIpas2le1osnxs execTlbipIpas2le1os withCur
  cases s.pes[s.cur]? with
  | none => rfl
  | some pe =>
    cases pairOf s.cfg t with
    | none => exact next_eq_mapNext_excludeXsInAdded rfl
    | some t2 =>
      cases s.cfg.featD128 with
      | false => exact next_eq_mapNext_excludeXsInAdded rfl
      | true => simpa [hxs] using byExceptionLevel_excludeXS_eq t t2 pe s

/-! ### A bad program counter (R54, R23) -/

theorem fetch_of_misaligned {cfg : Config} {pe : Pe} (h : pe.pc.toNat % 4 ≠ 0) :
    fetch cfg pe = .refused .pcMisaligned := by
  simp [fetch, h]

theorem fetch_of_wraps {cfg : Config} {pe : Pe} (hal : pe.pc.toNat % 4 = 0)
    (hin : inProgram cfg pe = true) (htop : 2 ^ 64 ≤ pe.pc.toNat + cfg.instrBytes) :
    fetch cfg pe = .refused .pcWraps := by
  simp only [fetch, hal, exitedPc_of_inProgram hin, hin, if_pos htop]
  simp

/-- Settles O8, from the test of `fetch` that each program counter fails. -/
theorem badProgramCounterIsRefused : Obligations.BadProgramCounterIsRefused := by
  intro s pe hpe hex
  rw [runCurrent_of hpe hex]
  refine ⟨fun hmis => ?_, fun hal hin htop => ?_⟩
  · rw [fetch_of_misaligned hmis, andThen_refused]
  · rw [fetch_of_wraps hal hin htop, andThen_refused]

/-! ### The Outer Shareable domain (R62) -/

theorem mem_osDomain {s : State} {p q : Nat} :
    q ∈ osDomain s p ↔
      q < s.pes.length ∧ (q = p ∨ ∃ peers, s.cfg.osPeers[p]? = some peers ∧ q ∈ peers) := by
  simp only [osDomain, List.mem_filter, List.mem_range, Bool.or_eq_true, beq_iff_eq,
    List.contains_iff_mem]
  cases s.cfg.osPeers[p]? <;> simp

/-- Settles O35: it is the membership rule of `osDomain`. -/
theorem domainIsTheIssuerAndItsListedPeers : Obligations.DomainIsTheIssuerAndItsListedPeers :=
  fun _ _ _ _ => mem_osDomain

end Sys2Proof.Machine

/-! PROOFS. The family of 30_encoding.md: the decoder against the encoder, the res0 bits, the TTL field, and the registers off the invalidation path. -/

namespace Sys2Proof

/-! ### The bytes of a word (R53, R85) -/

theorem toNat_append_eq_add {n m : Nat} (x : BitVec n) (y : BitVec m) :
    (x ++ y).toNat = x.toNat * 2 ^ m + y.toNat := by
  rw [BitVec.toNat_append, ← Nat.shiftLeft_add_eq_or_of_lt y.isLt, Nat.shiftLeft_eq]

theorem wordOfBytes_extractLsb' (w : Word) :
    wordOfBytes (w.extractLsb' 0 8) (w.extractLsb' 8 8) (w.extractLsb' 16 8) (w.extractLsb' 24 8) = w := by
  simp only [wordOfBytes, BitVec.extractLsb'_append_extractLsb'_eq_extractLsb']
  exact BitVec.extractLsb'_eq_self

theorem bytesOfWord_wordOfBytes (b0 b1 b2 b3 : Byte) :
    bytesOfWord (wordOfBytes b0 b1 b2 b3) = [b0, b1, b2, b3] := by
  have h : (wordOfBytes b0 b1 b2 b3).toNat =
      ((b3.toNat * 2 ^ 8 + b2.toNat) * 2 ^ 8 + b1.toNat) * 2 ^ 8 + b0.toNat := by
    simp only [wordOfBytes, toNat_append_eq_add]
  simp only [bytesOfWord, List.cons.injEq, and_true, ← BitVec.toNat_inj, BitVec.extractLsb'_toNat, h,
    Nat.shiftRight_eq_div_pow]
  omega

theorem decode_bytesOfWord_append (w : Word) (rest : List Byte) :
    decode (bytesOfWord w ++ rest) = (decodeWord w).map (·, rest) := by
  simp only [bytesOfWord, List.cons_append, List.nil_append, decode, wordOfBytes_extractLsb']
  cases decodeWord w with
  | ok i => rfl
  | error e => rfl

theorem decode_of_length_lt {bs : List Byte} (h : bs.length < 4) : decode bs = .error .truncated := by
  unfold decode
  split
  · simp only [List.length_cons] at h
    omega
  · rfl

/-- Four bytes or more are the bytes of a word and what follows. -/
theorem exists_eq_bytesOfWord_append {bs : List Byte} (h : 4 ≤ bs.length) :
    ∃ w rest, bs = bytesOfWord w ++ rest := by
  match bs, h with
  | b0 :: b1 :: b2 :: b3 :: rest, _ =>
    exact ⟨wordOfBytes b0 b1 b2 b3, rest, by rw [bytesOfWord_wordOfBytes]; rfl⟩

/-- Bytes decode exactly where they begin with the bytes of a word that does. -/
theorem decode_eq_ok_iff {bs rest : List Byte} {i : Instr} :
    decode bs = .ok (i, rest) ↔ ∃ w, decodeWord w = .ok i ∧ bs = bytesOfWord w ++ rest := by
  constructor
  · intro h
    rcases Nat.lt_or_ge bs.length 4 with hlen | hlen
    · rw [decode_of_length_lt hlen] at h
      cases h
    · obtain ⟨w, rest', rfl⟩ := exists_eq_bytesOfWord_append hlen
      rw [decode_bytesOfWord_append] at h
      cases hw : decodeWord w with
      | error e => rw [hw] at h; cases h
      | ok j => rw [hw] at h; cases h; exact ⟨w, hw, rfl⟩
  · rintro ⟨w, hw, rfl⟩
    rw [decode_bytesOfWord_append, hw]
    rfl

/-! ### The fields of a word (R74) -/

theorem toNat_wordOfTuple (s : SysTuple) (rt : BitVec 5) :
    (wordOfTuple s rt).toNat = (((((sysHead.toNat * 2 ^ 2 + s.op0.toNat) * 2 ^ 3 + s.op1.toNat) * 2 ^ 4
      + s.crn.toNat) * 2 ^ 4 + s.crm.toNat) * 2 ^ 3 + s.op2.toNat) * 2 ^ 5 + rt.toNat := by
  simp only [wordOfTuple, toNat_append_eq_add]

theorem fields_wordOfTuple (s : SysTuple) (rt : BitVec 5) :
    (wordOfTuple s rt).extractLsb' 21 11 = sysHead ∧ tupleOfWord (wordOfTuple s rt) = s ∧
    (wordOfTuple s rt).extractLsb' 0 5 = rt := by
  obtain ⟨op0, op1, crn, crm, op2⟩ := s
  simp only [tupleOfWord, SysTuple.mk.injEq, ← BitVec.toNat_inj, BitVec.extractLsb'_toNat,
    toNat_wordOfTuple, Nat.shiftRight_eq_div_pow]
  refine ⟨?head, ⟨?op0, ?op1, ?crn, ?crm, ?op2⟩, ?rt⟩ <;> omega

theorem wordOfTuple_tupleOfWord {w : Word} (h : w.extractLsb' 21 11 = sysHead) :
    wordOfTuple (tupleOfWord w) (w.extractLsb' 0 5) = w := by
  simp only [wordOfTuple, tupleOfWord, ← h, BitVec.extractLsb'_append_extractLsb'_eq_extractLsb']
  exact BitVec.extractLsb'_eq_self

/-- A word is its head, its tuple and its Rt field: no bit of it lies outside them. -/
theorem eq_wordOfTuple_iff {s : SysTuple} {rt : BitVec 5} {w : Word} :
    w = wordOfTuple s rt ↔
      w.extractLsb' 21 11 = sysHead ∧ tupleOfWord w = s ∧ w.extractLsb' 0 5 = rt := by
  constructor
  · rintro rfl
    exact fields_wordOfTuple s rt
  · rintro ⟨hhead, rfl, rfl⟩
    exact (wordOfTuple_tupleOfWord hhead).symm

/-! ### Decoding a word (R71, R72, R87) -/

theorem decodeTuple_eq_ok_iff {s : SysTuple} {t : Nat} {i : Instr} :
    decodeTuple s t = .ok i ↔ s = i.tuple ∧ t = i.rt := by
  have hne : tupleNxs ≠ tupleBase := by decide
  unfold decodeTuple
  cases i with
  | tlbipIpas2le1os u =>
    by_cases hb : s = tupleBase
    · simp [hb, Instr.tuple, Instr.rt]
    · by_cases hn : s = tupleNxs <;> simp [hb, hn, hne, Instr.tuple]
  | tlbipIpas2le1osnxs u =>
    by_cases hb : s = tupleBase
    · simp [hb, hne.symm, Instr.tuple]
    · by_cases hn : s = tupleNxs <;> simp [hb, hn, hne, Instr.tuple, Instr.rt]

theorem decodeTuple_eq_error_iff {s : SysTuple} {t : Nat} :
    decodeTuple s t = .error .notInThisSpec ↔ s ≠ tupleBase ∧ s ≠ tupleNxs := by
  unfold decodeTuple
  split
  · simp [*]
  · split <;> simp [*]

/-- A 5-bit field holds an index exactly where the index fits it and is what the field holds. -/
theorem toNat_eq_iff_lt_and_eq_ofNat {x : BitVec 5} {t : Nat} :
    x.toNat = t ↔ t < 32 ∧ x = BitVec.ofNat 5 t := by
  rw [← BitVec.toNat_inj, BitVec.toNat_ofNat]
  omega

/-- The decoder is the inverse of the encoder: a word decodes exactly to the well-formed instruction whose word it is. -/
theorem decodeWord_eq_ok_iff {w : Word} {i : Instr} :
    decodeWord w = .ok i ↔ i.wellFormed = true ∧ w = encodeWord i := by
  unfold decodeWord encodeWord Instr.wellFormed
  rw [eq_wordOfTuple_iff, decide_eq_true_iff]
  split
  · rename_i hhead
    rw [decodeTuple_eq_ok_iff, toNat_eq_iff_lt_and_eq_ofNat]
    tauto
  · rename_i hhead
    simp [hhead]

/-- Settles O3: the bytes are those of a word that decodes to the instruction. -/
theorem decodeOfEncodeIsTheInstruction : Obligations.DecodeOfEncodeIsTheInstruction :=
  fun i _ hwf => decode_eq_ok_iff.2 ⟨encodeWord i, decodeWord_eq_ok_iff.2 ⟨hwf, rfl⟩, rfl⟩

/-- Settles O4: the word that the bytes begin with is the word of the instruction. -/
theorem decodedBytesAreTheEncoding : Obligations.DecodedBytesAreTheEncoding := by
  intro bs rest i h
  obtain ⟨w, hw, rfl⟩ := decode_eq_ok_iff.1 h
  obtain ⟨hwf, rfl⟩ := decodeWord_eq_ok_iff.1 hw
  exact ⟨hwf, rfl⟩

theorem decodeWord_eq_error_iff {w : Word} :
    decodeWord w = .error .notInThisSpec ↔
      ¬ (w.extractLsb' 21 11 = sysHead ∧ tupleOfWord w = tupleBase) ∧
      ¬ (w.extractLsb' 21 11 = sysHead ∧ tupleOfWord w = tupleNxs) := by
  unfold decodeWord
  split
  · rename_i hhead
    rw [decodeTuple_eq_error_iff]
    simp [hhead]
  · rename_i hhead
    simp [hhead]

/-- The mask of R74 clears Rt and nothing else. -/
theorem toNat_and_mask (w : Word) : (w &&& 0xFFFFFFE0).toNat = w.toNat / 2 ^ 5 * 2 ^ 5 := by
  have hmask : (0xFFFFFFE0 : Word) = BitVec.allOnes 32 <<< 5 := by decide
  rw [hmask, ← BitVec.shiftLeft_ushiftRight, BitVec.toNat_shiftLeft, BitVec.toNat_ushiftRight,
    Nat.shiftLeft_eq, Nat.shiftRight_eq_div_pow]
  omega

/-- A word is of the pattern of a tuple exactly where its head and its tuple are the pattern's. -/
theorem and_mask_eq_wordOfTuple_iff {w : Word} {s : SysTuple} :
    w &&& 0xFFFFFFE0 = wordOfTuple s 0#5 ↔ w.extractLsb' 21 11 = sysHead ∧ tupleOfWord w = s := by
  have hw : w = wordOfTuple s (w.extractLsb' 0 5) ↔
      w.extractLsb' 21 11 = sysHead ∧ tupleOfWord w = s := by
    rw [eq_wordOfTuple_iff, eq_self, and_true]
  rw [← hw, ← BitVec.toNat_inj, ← BitVec.toNat_inj, toNat_and_mask, toNat_wordOfTuple,
    toNat_wordOfTuple, BitVec.extractLsb'_toNat]
  simp only [BitVec.toNat_zero, Nat.shiftRight_zero]
  omega

theorem wordOfTuple_tupleBase : wordOfTuple tupleBase 0#5 = 0xD54C8480 := by decide

theorem wordOfTuple_tupleNxs : wordOfTuple tupleNxs 0#5 = 0xD54C9480 := by decide

/-- Settles O5: the two patterns are those of the two tuples. -/
theorem onlyTheTwoPatternsDecode : Obligations.OnlyTheTwoPatternsDecode := by
  intro w
  rw [decodeWord_eq_error_iff, ← and_mask_eq_wordOfTuple_iff, ← and_mask_eq_wordOfTuple_iff,
    wordOfTuple_tupleBase, wordOfTuple_tupleNxs]

theorem decodeTuple_tuple (i : Instr) : decodeTuple i.tuple i.rt = .ok i :=
  decodeTuple_eq_ok_iff.2 ⟨rfl, rfl⟩

/-- Settles O1: the two tuples are those of the two variants. -/
theorem encodingTuplesNameTheTwoVariants : Obligations.EncodingTuplesNameTheTwoVariants :=
  fun t => ⟨decodeTuple_tuple (.tlbipIpas2le1os t), decodeTuple_tuple (.tlbipIpas2le1osnxs t)⟩

/-- Settles O2: five of the words are the words of their instructions, and the sixth has not the head of a SYSP word. -/
theorem specInstructionWordsDecode : Obligations.SpecInstructionWordsDecode := by
  have h := fun i => decodeOfEncodeIsTheInstruction i []
  exact ⟨h (.tlbipIpas2le1os 0) rfl, h (.tlbipIpas2le1os 30) rfl, h (.tlbipIpas2le1os 1) rfl,
    h (.tlbipIpas2le1osnxs 2) rfl, h (.tlbipIpas2le1osnxs 31) rfl, rfl⟩

end Sys2Proof

namespace Sys2Proof.Machine

/-! ### Fetching a word outside the spec (R87) -/

theorem decodeFetched_of_decodeWord_error {b0 b1 b2 b3 : Byte} {e : DecodeError}
    (h : decodeWord (wordOfBytes b0 b1 b2 b3) = .error e) :
    decodeFetched b0 b1 b2 b3 = .refused .notInThisSpec := by
  simp [decodeFetched, decode, h]

/-- Settles O7: the fetch reads the four bytes, whose word O5 says does not decode. -/
theorem wordOutsideTheSpecIsRefused : Obligations.WordOutsideTheSpecIsRefused := by
  intro s pe b0 b1 b2 b3 hpe hex hal hin htop h0 h1 h2 h3 hbase hnxs
  have hword := (onlyTheTwoPatternsDecode (wordOfBytes b0 b1 b2 b3)).2 ⟨hbase, hnxs⟩
  rw [runCurrent_of hpe hex, fetch_of hal hin htop (fetchBytes_of h0 h1 h2 h3),
    decodeFetched_of_decodeWord_error hword, andThen_refused]

/-! ### The fields of the operand by register bits (R77, R90) -/

section OperandFields

variable (pe : Pe) (t t2 : Nat)

theorem res0Hi_operandOf :
    res0Hi (operandOf pe t t2) = (readX pe t2).extractLsb' 44 20 :=
  BitVec.extractLsb'_append_eq_of_le (by decide)

theorem nsBit_operandOf : nsBit (operandOf pe t t2) = (readX pe t).getLsbD 63 := by
  rw [nsBit, operandOf, BitVec.getLsbD_append]
  rfl

theorem res0Mid_operandOf :
    res0Mid (operandOf pe t t2) = (readX pe t).extractLsb' 48 15 :=
  BitVec.extractLsb'_append_eq_of_add_le (by decide)

theorem ttlField_operandOf :
    ttlField (operandOf pe t t2) = (readX pe t).extractLsb' 44 4 :=
  BitVec.extractLsb'_append_eq_of_add_le (by decide)

theorem res0Lo_operandOf :
    res0Lo (operandOf pe t t2) = (readX pe t).extractLsb' 0 44 :=
  BitVec.extractLsb'_append_eq_of_add_le (by decide)

end OperandFields

/-! ### The res0 bits (R83, R96) -/

/-- The list of R96, field by field. -/
theorem res0BitSet_iff {cfg : Config} {nsRes0 : Bool} {op : Operand} :
    res0BitSet cfg nsRes0 op = true ↔
      res0Hi op ≠ 0 ∨ res0Mid op ≠ 0 ∨ res0Lo op ≠ 0 ∨ (nsRes0 = true ∧ nsBit op = true) ∨
      (cfg.featTTL = false ∧ ttlField op ≠ 0) ∨
      (cfg.featTTL = true ∧ ttlGranule (ttlField op) = 0 ∧ ttlLevel (ttlField op) ≠ 0) := by
  simp only [res0BitSet, Bool.or_eq_true, Bool.and_eq_true, Bool.not_eq_true', bne_iff_ne,
    beq_iff_eq, or_assoc, and_assoc]

/-- Settles O13: the list of R96, each field at its place in its register. -/
theorem res0BitsByRegisterBits : Obligations.Res0BitsByRegisterBits := by
  intro cfg pe t t2 nsRes0
  rw [res0BitSet_iff, res0Hi_operandOf, res0Mid_operandOf, res0Lo_operandOf, nsBit_operandOf,
    ttlField_operandOf, ttlGranule_extract, ttlLevel_extract]

theorem invalidate_eq_res0Set {s : State} {pe : Pe} {a : Attr} {t t2 : Nat} {ss : SecurityState}
    {space : IpaSpace} {nsRes0 : Bool} (hss : securityStateAtEL1 s.cfg pe = some ss)
    (hsp : ipaSpaceOf s.cfg ss (nsBit (operandOf pe t t2)) = some (space, nsRes0))
    (hset : res0BitSet s.cfg nsRes0 (operandOf pe t t2) = true) (hpol : s.cfg.res0Policy = .refuse) :
    invalidate a t t2 pe s = .refused .res0Set := by
  rw [invalidate, hss]
  simp [tlbipIpas2, hsp, hset, hpol]

/-- Settles O14: both variants reach the invalidation, which tests the bits of O13. -/
theorem setRes0BitIsRefused : Obligations.SetRes0BitIsRefused := by
  intro s pe t t2 ss space nsRes0 hpe ht hd hel hss hsp hbits hpol
  have hset := (res0BitsByRegisterBits s.cfg pe t t2 nsRes0).2 hbits
  refine ⟨?_, fun hx => ?_⟩
  · rw [exec_base_eq_invalidate hpe ht hd hel]
    exact invalidate_eq_res0Set hss hsp hset hpol
  · rw [exec_nxs_eq_invalidate hpe ht hd hx hel]
    exact invalidate_eq_res0Set hss hsp hset hpol

/-! ### The specified IPA and the TTL field (R79, R82, R84) -/

/-- Settles O26: the specified IPA is the field above twelve zero bits. -/
theorem ipaFieldHoldsIpaBits : Obligations.IpaFieldHoldsIpaBits :=
  fun _ => ⟨BitVec.extractLsb'_append_eq_left, BitVec.extractLsb'_append_eq_right⟩

/-- With a granule in the TTL field, no bit of the field is res0. -/
theorem res0BitSet_of_ttlGranule_ne_zero {cfg : Config} {op : Operand} (nsRes0 : Bool)
    (hf : cfg.featTTL = true) (hg : ttlGranule (ttlField op) ≠ 0#2) :
    res0BitSet cfg nsRes0 op =
      (res0Hi op != 0 || res0Mid op != 0 || res0Lo op != 0 || (nsRes0 && nsBit op)) := by
  simp [res0BitSet, hf, hg]

/-- Settles O27: each of the four encodings has a granule, and no row of R93's table gives it a level. -/
theorem reservedTtlEncodingsGiveNoLevel : Obligations.ReservedTtlEncodingsGiveNoLevel := by
  intro cfg op nsRes0 hf henc
  suffices h : ttlDecode cfg (ttlField op) = .any ∧ ttlGranule (ttlField op) ≠ 0#2 from
    ⟨h.1, res0BitSet_of_ttlGranule_ne_zero nsRes0 hf h.2⟩
  rcases henc with h | h | ⟨hl, h | h⟩ <;> rw [h] <;> refine ⟨?_, by decide⟩
  · simp [ttlDecode, hf, ttlGranule, ttlLevel]
  · simp [ttlDecode, hf, ttlGranule, ttlLevel]
  · simp [ttlDecode, hf, hl, ttlGranule, ttlLevel]
  · simp [ttlDecode, hf, hl, ttlGranule, ttlLevel]

theorem entryMatches_ttlConsistent {cfg : Config} {r : TlbiRecord} {e : TlbEntry}
    (h : entryMatches cfg r e = true) : ttlConsistent (ttlDecode cfg r.ttl) e = true := by
  rw [entryMatches, Bool.and_eq_true] at h
  exact h.2

theorem ttlConsistent_level_iff {g : Granule} {l : Int} {e : TlbEntry} :
    ttlConsistent (.level g l) e = true ↔ e.granule = g ∧ e.level = l := by
  simp [ttlConsistent]

/-- Settles O32: a match is consistent with the TTL. -/
theorem incorrectTtlMatchesNothing : Obligations.IncorrectTtlMatchesNothing := by
  intro cfg r e g l hdec hne
  refine Bool.eq_false_iff.2 fun hm => ?_
  have hcons := entryMatches_ttlConsistent hm
  rw [hdec, ttlConsistent_level_iff] at hcons
  obtain ⟨hg, hl⟩ := hcons
  exact hne.elim (fun h => h hg) (fun h => h hl)

/-! ### The tests of an execution in their order (R100, R101, R125) -/

section Tests

variable {s : State} {pe : Pe}

/-- U5: the register has no pair. -/
theorem exec_of_noPair {i : Instr} (hpe : s.pes[s.cur]? = some pe) (ht : pairOf s.cfg i.rt = none) :
    exec i s = .next (takeException (.undefined .u5) s) := by
  cases i with
  | tlbipIpas2le1os t =>
    rw [Instr.rt] at ht
    simp [exec, execTlbipIpas2le1os, withCur_of hpe, ht]
  | tlbipIpas2le1osnxs t =>
    rw [Instr.rt] at ht
    simp [exec, execTlbipIpas2le1osnxs, withCur_of hpe, ht]

/-- U1: FEAT_D128 is not implemented. -/
theorem exec_of_noD128 {i : Instr} {t2 : Nat} (hpe : s.pes[s.cur]? = some pe)
    (ht : pairOf s.cfg i.rt = some t2) (hd : s.cfg.featD128 = false) :
    exec i s = .next (takeException (.undefined .u1) s) := by
  cases i with
  | tlbipIpas2le1os t =>
    rw [Instr.rt] at ht
    simp [exec, execTlbipIpas2le1os, withCur_of hpe, ht, hd]
  | tlbipIpas2le1osnxs t =>
    rw [Instr.rt] at ht
    simp [exec, execTlbipIpas2le1osnxs, withCur_of hpe, ht, hd]

variable {t t2 : Nat}

/-- U2: FEAT_XS is not implemented. -/
theorem exec_nxs_of_noXS (hpe : s.pes[s.cur]? = some pe) (ht : pairOf s.cfg t = some t2)
    (hd : s.cfg.featD128 = true) (hx : s.cfg.featXS = false) :
    exec (.tlbipIpas2le1osnxs t) s = .next (takeException (.undefined .u2) s) := by
  simp [exec, execTlbipIpas2le1osnxs, withCur_of hpe, ht, hd, hx]

/-- The base variant where the Exception level decides. -/
theorem exec_base_eq_byExceptionLevel (hpe : s.pes[s.cur]? = some pe)
    (ht : pairOf s.cfg t = some t2) (hd : s.cfg.featD128 = true) :
    exec (.tlbipIpas2le1os t) s = byExceptionLevel .allAttr t t2 pe s := by
  simp [exec, execTlbipIpas2le1os, withCur_of hpe, ht, hd]

/-- The nXS variant where the Exception level decides. -/
theorem exec_nxs_eq_byExceptionLevel (hpe : s.pes[s.cur]? = some pe)
    (ht : pairOf s.cfg t = some t2) (hd : s.cfg.featD128 = true) (hx : s.cfg.featXS = true) :
    exec (.tlbipIpas2le1osnxs t) s = byExceptionLevel .excludeXS t t2 pe s := by
  simp [exec, execTlbipIpas2le1osnxs, withCur_of hpe, ht, hd, hx]

end Tests

/-! ### The general registers off the invalidation path (R76, R83) -/

/-- A PE with other register contents. -/
def Pe.withRegisters (x' : Vector XWord 31) (pe : Pe) : Pe := { pe with x := x' }

theorem State.modifyPe_comm (s : State) (p : Nat) {f g : Pe → Pe} (h : ∀ pe, f (g pe) = g (f pe)) :
    (s.modifyPe p g).modifyPe p f = (s.modifyPe p f).modifyPe p g := by
  simp [State.modifyPe, List.modify_modify_eq, Function.comp_def, h]

/-- Changing registers before an exception is taken or after it is the same. -/
theorem next_takeException_withRegisters (x' : Vector XWord 31) (e : Exc) (s : State) :
    .next (takeException e (s.modifyPe s.cur (Pe.withRegisters x'))) =
      mapNext (fun s1 => s1.modifyPe s.cur (Pe.withRegisters x')) (.next (takeException e s)) :=
  congrArg Host.Outcome.next
    (State.modifyPe_comm s s.cur (f := fun pe => { pe with exception := some e }) fun _ => rfl)

/-- Changing registers before the program counter advances or after it is the same. -/
theorem next_advancePc_withRegisters (x' : Vector XWord 31) (s : State) :
    .next (advancePc (s.modifyPe s.cur (Pe.withRegisters x'))) =
      mapNext (fun s1 => s1.modifyPe s.cur (Pe.withRegisters x')) (.next (advancePc s)) :=
  congrArg Host.Outcome.next
    (State.modifyPe_comm s s.cur
      (f := fun pe => { pe with pc := pe.pc + BitVec.ofNat 64 s.cfg.instrBytes }) fun _ => rfl)

theorem invalidating_eq_false {cfg : Config} {pe : Pe} (h : invalidating cfg pe = false)
    (hd : cfg.featD128 = true) : pe.el ≠ .el2 ∧ (pe.el = .el3 → el2Enabled cfg pe = false) := by
  simpa [invalidating, hd] using h

/-- The tests of the Exception level read no register. -/
theorem byExceptionLevel_withRegisters (x' : Vector XWord 31) {a : Attr} {t t2 : Nat} {pe : Pe}
    {s : State} (h2 : pe.el ≠ .el2) (h3 : pe.el = .el3 → el2Enabled s.cfg pe = false) :
    byExceptionLevel a t t2 (pe.withRegisters x') (s.modifyPe s.cur (Pe.withRegisters x')) =
      mapNext (fun s1 => s1.modifyPe s.cur (Pe.withRegisters x')) (byExceptionLevel a t t2 pe s) := by
  have hel : (pe.withRegisters x').el = pe.el := rfl
  have h2e : el2Enabled s.cfg (pe.withRegisters x') = el2Enabled s.cfg pe := rfl
  have hnv : hcrNV s.cfg (pe.withRegisters x') = hcrNV s.cfg pe := rfl
  unfold byExceptionLevel
  simp only [hel, State.modifyPe_cfg, h2e, hnv]
  cases hlevel : pe.el with
  | el0 => exact next_takeException_withRegisters x' _ s
  | el1 =>
    cases el2Enabled s.cfg pe && hcrNV s.cfg pe with
    | false => exact next_takeException_withRegisters x' _ s
    | true => exact next_takeException_withRegisters x' _ s
  | el2 => exact absurd hlevel h2
  | el3 =>
    simp only [h3 hlevel]
    exact next_advancePc_withRegisters x' s

/-- Settles O22: the test that decides an execution off the invalidation path is the same whatever the registers hold. -/
theorem registersUnreadOffTheInvalidationPath : Obligations.RegistersUnreadOffTheInvalidationPath := by
  intro i s pe x' hpe hoff
  have hpe' := State.modifyPe_get_same s s.cur (Pe.withRegisters x') hpe
  change exec i (s.modifyPe s.cur (Pe.withRegisters x')) =
    mapNext (fun s1 => s1.modifyPe s.cur (Pe.withRegisters x')) (exec i s)
  cases ht : pairOf s.cfg i.rt with
  | none =>
    rw [exec_of_noPair hpe ht, exec_of_noPair hpe' ht]
    exact next_takeException_withRegisters x' _ s
  | some t2 =>
    cases hd : s.cfg.featD128 with
    | false =>
      rw [exec_of_noD128 hpe ht hd, exec_of_noD128 hpe' ht hd]
      exact next_takeException_withRegisters x' _ s
    | true =>
      obtain ⟨h2, h3⟩ := invalidating_eq_false hoff hd
      cases i with
      | tlbipIpas2le1os t =>
        rw [Instr.rt] at ht
        rw [exec_base_eq_byExceptionLevel hpe ht hd, exec_base_eq_byExceptionLevel hpe' ht hd]
        exact byExceptionLevel_withRegisters x' h2 h3
      | tlbipIpas2le1osnxs t =>
        rw [Instr.rt] at ht
        cases hx : s.cfg.featXS with
        | false =>
          rw [exec_nxs_of_noXS hpe ht hd hx, exec_nxs_of_noXS hpe' ht hd hx]
          exact next_takeException_withRegisters x' _ s
        | true =>
          rw [exec_nxs_eq_byExceptionLevel hpe ht hd hx, exec_nxs_eq_byExceptionLevel hpe' ht hd hx]
          exact byExceptionLevel_withRegisters x' h2 h3

end Sys2Proof.Machine

/-! PROOFS. The family of 40_tlbip_ipas2le1os.md: the invariant of the machine, the life of an operation, the two instructions, and the match predicate. -/

namespace Sys2Proof.Machine

/-! ### What a step keeps of a PE (R32, R33) -/

/-- A PE that a step leaves was there before it. -/
theorem exists_pe_before {s s' : State} {q : Nat} {pe' : Pe} (h : step s = .next s')
    (hpe' : s'.pes[q]? = some pe') : ∃ pe, s.pes[q]? = some pe := by
  obtain ⟨-, hlen, -⟩ := step_pes h
  have hq : q < s.pes.length := hlen ▸ (List.getElem?_eq_some_iff.1 hpe').1
  exact ⟨_, List.getElem?_eq_getElem hq⟩

/-- A PE stays good where its text stays and its TLB stays a set of entry records. -/
theorem Pe.Good.of_tlb {cfg : Config} {pe pe' : Pe} (hg : pe.Good cfg) (hprog : pe'.prog = pe.prog)
    (hset : pe'.tlb.Nodup) (hwf : ∀ e ∈ pe'.tlb, e.wf cfg = true) : pe'.Good cfg :=
  ⟨hprog ▸ hg.text, hset, hwf⟩

/-- Entries taken from a TLB leave the PE good. -/
theorem Pe.Good.of_filter {cfg : Config} {pe pe' : Pe} (hg : pe.Good cfg) (keep : TlbEntry → Bool)
    (hprog : pe'.prog = pe.prog) (htlb : pe'.tlb = pe.tlb.filter keep) : pe'.Good cfg :=
  hg.of_tlb hprog (htlb ▸ hg.tlbSet.filter keep)
    fun e he => hg.tlbRecords e (List.mem_of_mem_filter (htlb ▸ he))

theorem Pe.Good.gain {cfg : Config} {pe : Pe} {e : TlbEntry} (hg : pe.Good cfg)
    (he : e.wf cfg = true) :
    Pe.Good cfg { pe with tlb := if pe.tlb.contains e then pe.tlb else pe.tlb ++ [e] } := by
  refine hg.of_tlb rfl ?_ fun e' he' => ?_
  · split
    · exact hg.tlbSet
    · rename_i hnot
      exact hg.tlbSet.append (List.nodup_singleton e)
        (by simpa [List.contains_iff_mem] using hnot)
  · rcases mem_gained.1 he' with hold | rfl
    · exact hg.tlbRecords e' hold
    · exact he

theorem EnvChange.keeps_good {cfg : Config} {f : Pe → Pe} {pe : Pe} (hf : EnvChange cfg f)
    (hg : pe.Good cfg) : (f pe).Good cfg := by
  cases hf with
  | gain e he hf => exact hf pe ▸ hg.gain he
  | lose e hf => exact hg.of_filter _ (by rw [hf]) (by rw [hf])
  | access g hf _ => exact hf pe ▸ ⟨hg.text, hg.tlbSet, hg.tlbRecords⟩

theorem step_keeps_peGood {s s' : State} (h : step s = .next s')
    (hI : ∀ pe ∈ s.pes, pe.Good s.cfg) : ∀ pe ∈ s'.pes, pe.Good s'.cfg := by
  intro pe' hmem
  obtain ⟨q, hpe'⟩ := List.mem_iff_getElem?.1 hmem
  obtain ⟨pe, hpe⟩ := exists_pe_before h hpe'
  obtain ⟨hcfg, -, hpes⟩ := step_pes h
  obtain ⟨pe₁, hpe₁, hcases⟩ := hpes q pe hpe
  obtain rfl : pe' = pe₁ := Option.some.inj (hpe'.symm.trans hpe₁)
  have hg : pe.Good s.cfg := hI pe (List.mem_of_getElem? hpe)
  rw [hcfg]
  rcases hcases with rfl | ⟨v, e, rfl, -⟩ | ⟨o, rest, -, -, rfl⟩ | ⟨f, ev, rest, -, hf, -, rfl⟩
  · exact hg
  · exact ⟨hg.text, hg.tlbSet, hg.tlbRecords⟩
  · exact hg.of_filter _ rfl rfl
  · exact hf.keeps_good hg

/-! ### Where the marks of an access come from (R97, R59) -/

@[simp] theorem markAccess_usedEntries (o : PendingOp) (m : List TlbEntry) (a : Access) :
    (markAccess o m a).usedEntries = a.usedEntries := by
  unfold markAccess
  split <;> rfl

theorem markAccess_of_uses {o : PendingOp} {m : List TlbEntry} {a : Access}
    (h : ∃ e ∈ a.usedEntries, e ∈ m) : markAccess o m a = { a with oldOf := a.oldOf ++ [o.id] } :=
  if_pos (by simpa [List.any_eq_true, List.contains_iff_mem] using h)

theorem markAccess_of_not_uses {o : PendingOp} {m : List TlbEntry} {a : Access}
    (h : ¬ ∃ e ∈ a.usedEntries, e ∈ m) : markAccess o m a = a :=
  if_neg (by simpa [List.any_eq_true, List.contains_iff_mem] using h)

/-- A mark is one the access had, or that of the operation whose match it uses. -/
theorem mem_markAccess_oldOf {o : PendingOp} {m : List TlbEntry} {a : Access} {n : Nat}
    (h : n ∈ (markAccess o m a).oldOf) :
    n ∈ a.oldOf ∨ n = o.id ∧ ∃ e ∈ a.usedEntries, e ∈ m := by
  by_cases hu : ∃ e ∈ a.usedEntries, e ∈ m
  · rw [markAccess_of_uses hu] at h
    rcases List.mem_append.1 h with h | h
    · exact .inl h
    · exact .inr ⟨List.mem_singleton.1 h, hu⟩
  · rw [markAccess_of_not_uses hu] at h
    exact .inl h

/-- The environment marks no access, and takes no used entry from a marked one. -/
theorem EnvChange.mark_before {cfg : Config} {f : Pe → Pe} {pe : Pe} {a' : Access} {n : Nat}
    (hf : EnvChange cfg f) (ha' : a' ∈ (f pe).accesses) (hn : n ∈ a'.oldOf) :
    ∃ a ∈ pe.accesses, n ∈ a.oldOf ∧ a.usedEntries ⊆ a'.usedEntries := by
  cases hf with
  | gain e _ hf => exact ⟨a', by simpa [hf] using ha', hn, List.Subset.refl _⟩
  | lose e hf => exact ⟨a', by simpa [hf] using ha', hn, List.Subset.refl _⟩
  | access g hf hg =>
    rcases hg pe.accesses a' (by simpa [hf] using ha') with hnone | ⟨a, ha, hold, hused⟩
    · simp [hnone] at hn
    · exact ⟨a, ha, hold ▸ hn, hused⟩

/-- A mark after a step was there before it, or the step performed the operation at that PE and the access uses an entry it matched. -/
theorem step_mark {s s' : State} {q n : Nat} {pe pe' : Pe} {a' : Access} (h : step s = .next s')
    (hpe : s.pes[q]? = some pe) (hpe' : s'.pes[q]? = some pe') (ha' : a' ∈ pe'.accesses)
    (hn : n ∈ a'.oldOf) :
    (∃ a ∈ pe.accesses, n ∈ a.oldOf ∧ a.usedEntries ⊆ a'.usedEntries) ∨
    ∃ o rest, o ∈ s.pendingTLBI ∧ s.agenda = .perform o.id q :: rest ∧ n = o.id ∧
      ∃ e ∈ a'.usedEntries, e ∈ pe.tlb ∧ entryMatches s.cfg o.record e = true := by
  obtain ⟨-, -, hpes⟩ := step_pes h
  obtain ⟨pe₁, hpe₁, hcases⟩ := hpes q pe hpe
  obtain rfl : pe' = pe₁ := Option.some.inj (hpe'.symm.trans hpe₁)
  rcases hcases with rfl | ⟨v, e, rfl, -⟩ | ⟨o, rest, ho, hag, rfl⟩ | ⟨f, ev, rest, -, hf, -, rfl⟩
  · exact .inl ⟨a', ha', hn, List.Subset.refl _⟩
  · exact .inl ⟨a', ha', hn, List.Subset.refl _⟩
  · obtain ⟨a, ha, rfl⟩ := List.mem_map.1 ha'
    rcases mem_markAccess_oldOf hn with hn | ⟨rfl, e, he, hm⟩
    · exact .inl ⟨a, ha, hn, by simp⟩
    · exact .inr ⟨o, rest, ho, hag, rfl, e, by simpa using he, List.mem_filter.1 hm⟩
  · exact .inl (hf.mark_before ha' hn)

/-! ### What a step keeps of a pending operation (R97, R102) -/

/-- An operation stays good where the parameters and the PEs stay and no number is taken back. -/
theorem PendingOp.Good.mono {s s' : State} {o : PendingOp} (hg : o.Good s) (hcfg : s'.cfg = s.cfg)
    (hlen : s'.pes.length = s.pes.length) (hn : s.nextOp ≤ s'.nextOp) : o.Good s' where
  numbered := hg.numbered.trans_le hn
  issuer := hlen ▸ hg.issuer
  performedIn := by rw [osDomain_congr hcfg hlen]; exact hg.performedIn
  performedOnce := hg.performedOnce
  matchedThere := hcfg ▸ hg.matchedThere
  ipaPage := hg.ipaPage
  vmidFits := hcfg ▸ hg.vmidFits
  space := hg.space

/-- An operation as an instruction issues it is good (R96). -/
theorem issuedOp_good {s : State} {c : Nat} {ss : SecurityState} {op : Operand} {space : IpaSpace}
    {nsRes0 : Bool} {ttl : BitVec 4} (pe : Pe) (a : Attr) (hc : c < s.pes.length)
    (hsp : ipaSpaceOf s.cfg ss (nsBit op) = some (space, nsRes0)) :
    PendingOp.Good { s with nextOp := s.nextOp + 1 }
      ⟨s.nextOp, c, ⟨ss, specifiedIpa op, space, currentVmid s.cfg pe, ttl⟩, a, [], []⟩ where
  numbered := Nat.lt_succ_self _
  issuer := hc
  performedIn := by simp
  performedOnce := List.nodup_nil
  matchedThere := by simp
  ipaPage := specifiedIpa_mod op
  vmidFits := Nat.mod_lt _ (Nat.two_pow_pos _)
  space := ipaSpaceOf_legal hsp

/-- Performing an operation at one more PE of the domain leaves it good. -/
theorem performedOp_good {s : State} {o : PendingOp} {q : Nat} (hg : o.Good s)
    (hq : q ∈ osDomain s o.issuer) (hn : q ∉ o.performedAt) : (performedOp s q o).Good s where
  numbered := hg.numbered
  issuer := hg.issuer
  performedIn := by
    simp only [performedOp_performedAt, List.forall_mem_append, List.forall_mem_singleton]
    exact ⟨hg.performedIn, hq⟩
  performedOnce := hg.performedOnce.append (List.nodup_singleton q) (by simpa using hn)
  matchedThere := by
    intro x hx
    rcases (mem_performedOp_matched s q o).1 hx with hx | ⟨pe, -, rfl, -, hm⟩
    · exact (hg.matchedThere x hx).imp_left (List.mem_append_left _)
    · exact ⟨by simp, hm⟩
  ipaPage := hg.ipaPage
  vmidFits := hg.vmidFits
  space := hg.space

/-- A pending operation after a step is newly issued, or was pending, or is one that the step performed. -/
theorem step_op_before {s s' : State} {o' : PendingOp} (hN : s.NumbersDistinct)
    (h : step s = .next s') (ho' : o' ∈ s'.pendingTLBI) :
    (o'.id = s.nextOp ∧ o'.Good s') ∨ o' ∈ s.pendingTLBI ∨
    ∃ o q, o ∈ s.pendingTLBI ∧ q ∈ osDomain s o.issuer ∧ q ∉ o.performedAt ∧
      o' = performedOp s q o := by
  obtain ⟨hcfg, hlen, -⟩ := step_pes h
  rcases step_ops h with ⟨hp, -⟩ | ⟨c, ss, sp, n, pe, op, a, -, hsp, hc, hp, hn⟩ |
    ⟨o, q, _, ho, -, hq, hnot, -, hp⟩ | ⟨o, _, -, -, -, -, hp⟩ <;> rw [hp] at ho'
  · exact .inr (.inl ho')
  · rcases List.mem_append.1 ho' with hold | hnew
    · exact .inr (.inl hold)
    · obtain rfl := List.mem_singleton.1 hnew
      exact .inl ⟨rfl, (issuedOp_good pe a hc hsp).mono hcfg hlen hn.ge⟩
  · obtain ⟨o₁, ho₁, rfl⟩ := List.mem_map.1 ho'
    split
    · rename_i hid
      obtain rfl := op_eq_of_id hN.distinct ho₁ ho hid
      exact .inr (.inr ⟨o₁, q, ho, hq, hnot, rfl⟩)
    · exact .inr (.inl ho₁)
  · exact .inr (.inl (List.mem_of_mem_filter ho'))

theorem step_nextOp_le {s s' : State} (h : step s = .next s') : s.nextOp ≤ s'.nextOp := by
  rcases step_ops h with ⟨-, hn⟩ | ⟨_, _, _, _, _, _, _, -, -, -, -, hn⟩ |
    ⟨_, _, _, -, -, -, -, hn, -⟩ | ⟨_, _, -, -, -, hn, -⟩ <;> omega

theorem step_keeps_opGood {s s' : State} (hI : s.Inv) (h : step s = .next s') :
    ∀ o' ∈ s'.pendingTLBI, o'.Good s' := by
  intro o' ho'
  obtain ⟨hcfg, hlen, -⟩ := step_pes h
  have hle := step_nextOp_le h
  rcases step_op_before hI.numbersDistinct h ho' with ⟨-, hg⟩ | hold | ⟨o, q, ho, hq, hn, rfl⟩
  · exact hg
  · exact (hI.ops o' hold).mono hcfg hlen hle
  · exact (performedOp_good (hI.ops o ho) hq hn).mono hcfg hlen hle

/-! ### The perform step (R97) -/

/-- The perform step of a pending operation. -/
theorem step_perform {s : State} (hN : s.NumbersDistinct) {o : PendingOp} {q : Nat}
    {rest : List Event} (ho : o ∈ s.pendingTLBI) (hag : s.agenda = .perform o.id q :: rest) :
    step s = if performEnabled s o q = true then .next (performStep { s with agenda := rest } o q)
      else .refused .eventNotEnabled := by
  rw [step_of_agenda hag]
  simp only [handleEvent, perform, find_op hN.distinct ho]
  rfl

theorem performEnabled_iff {s : State} {o : PendingOp} {q : Nat} :
    performEnabled s o q = true ↔ q ∈ osDomain s o.issuer ∧ q ∉ o.performedAt := by
  simp [performEnabled]

/-- Right after a perform step, the operation is in its performed form and no other has its number. -/
theorem eq_performedOp_of_step {s s' : State} {o o' : PendingOp} {q : Nat} {rest : List Event}
    (hN : s.NumbersDistinct) (ho : o ∈ s.pendingTLBI) (hag : s.agenda = .perform o.id q :: rest)
    (h : step s = .next s') (ho' : o' ∈ s'.pendingTLBI) (hid : o'.id = o.id) :
    o' = performedOp s q o := by
  rw [step_perform hN ho hag] at h
  split at h
  · cases h
    obtain ⟨o₁, ho₁, rfl⟩ := List.mem_map.1 ho'
    by_cases h₁ : o₁.id = o.id
    · obtain rfl := op_eq_of_id hN.distinct ho₁ ho h₁
      exact if_pos rfl
    · rw [if_neg h₁] at hid
      exact absurd hid h₁
  · cases h

/-! ### The invariant of the machine -/

/-- Every mark is a number given out: an old one was, and a new one is the number of a pending operation. -/
theorem step_keeps_marks {s s' : State} (hI : s.Inv) (h : step s = .next s') :
    ∀ pe' ∈ s'.pes, ∀ a' ∈ pe'.accesses, ∀ n ∈ a'.oldOf, n < s'.nextOp := by
  intro pe' hmem a' ha' n hn
  obtain ⟨q, hpe'⟩ := List.mem_iff_getElem?.1 hmem
  obtain ⟨pe, hpe⟩ := exists_pe_before h hpe'
  refine Nat.lt_of_lt_of_le ?_ (step_nextOp_le h)
  rcases step_mark h hpe hpe' ha' hn with ⟨a, ha, hold, -⟩ | ⟨o, rest, ho, -, rfl, -⟩
  · exact hI.marks pe (List.mem_of_getElem? hpe) a ha n hold
  · exact (hI.ops o ho).numbered

/-- A perform step takes no entry from those the operation matched. -/
theorem matched_subset_performedOp (s : State) (q : Nat) (o : PendingOp) :
    o.matched ⊆ (performedOp s q o).matched :=
  List.subset_append_left _ _

/-- A marked access uses an entry that the operation matched: where the mark is old the operation kept the entry, and where it is new the step that made it put the entry with the operation. -/
theorem step_keeps_marksUse {s s' : State} (hI : s.Inv) (h : step s = .next s') :
    ∀ q pe', s'.pes[q]? = some pe' → ∀ a' ∈ pe'.accesses, ∀ o' ∈ s'.pendingTLBI, o'.id ∈ a'.oldOf →
      ∃ e ∈ a'.usedEntries, (q, e) ∈ o'.matched := by
  intro q pe' hpe' a' ha' o' ho' hmark
  have hN := hI.numbersDistinct
  obtain ⟨pe, hpe⟩ := exists_pe_before h hpe'
  rcases step_mark h hpe hpe' ha' hmark with
    ⟨a, ha, hold, hused⟩ | ⟨o, rest, ho, hag, hid, e, heu, hetlb, hm⟩
  · have huse : ∀ o ∈ s.pendingTLBI, o.id = o'.id → o.matched ⊆ o'.matched →
        ∃ e ∈ a'.usedEntries, (q, e) ∈ o'.matched := by
      intro o ho hid hsub
      obtain ⟨e, he, hem⟩ := hI.marksUse q pe hpe a ha o ho (hid ▸ hold)
      exact ⟨e, hused he, hsub hem⟩
    rcases step_op_before hN h ho' with ⟨hnew, -⟩ | hkept | ⟨o, q', ho, -, -, rfl⟩
    · have hlt := hI.marks pe (List.mem_of_getElem? hpe) a ha o'.id hold
      exact absurd hnew hlt.ne
    · exact huse o' hkept rfl (List.Subset.refl _)
    · exact huse o ho rfl (matched_subset_performedOp s q' o)
  · obtain rfl := eq_performedOp_of_step hN ho hag h ho' hid
    exact ⟨e, heu, (mem_performedOp_matched s q o).2 (.inr ⟨pe, hpe, rfl, hetlb, hm⟩)⟩

/-- Settles O52, one part of the invariant at a time. -/
theorem everyStepKeepsTheMachineInvariant : Obligations.EveryStepKeepsTheMachineInvariant :=
  fun _ _ hI h =>
    { pes := step_keeps_peGood h hI.pes
      ops := step_keeps_opGood hI h
      idsDistinct := (step_keeps_numbersDistinct hI.numbersDistinct h).distinct
      marks := step_keeps_marks hI h
      marksUse := step_keeps_marksUse hI h }

/-! ### What a perform step does to a PE and to the operation (R97, R99, R131) -/

/-- The perform step at a PE of the domain where the operation was not performed yet. -/
theorem step_perform_of_first {s : State} (hN : s.NumbersDistinct) {o : PendingOp} {q : Nat}
    {rest : List Event} (ho : o ∈ s.pendingTLBI) (hag : s.agenda = .perform o.id q :: rest)
    (hq : q ∈ osDomain s o.issuer) (hn : q ∉ o.performedAt) :
    step s = .next (performStep { s with agenda := rest } o q) :=
  (step_perform hN ho hag).trans (if_pos (performEnabled_iff.2 ⟨hq, hn⟩))

theorem performedOp_eq {s : State} {o : PendingOp} {q : Nat} {pe : Pe} (hpe : s.pes[q]? = some pe) :
    performedOp s q o =
      { o with
        performedAt := o.performedAt ++ [q]
        matched := o.matched ++
          (pe.tlb.filter (fun e => entryMatches s.cfg o.record e)).map (fun e => (q, e)) } := by
  simp [performedOp, hpe, matchSet]

/-- The state after a perform step, as the list of PEs with one replaced and the list of operations with one replaced. -/
theorem performStep_eq {s : State} (hN : s.NumbersDistinct) {o : PendingOp} {q : Nat} {pe : Pe}
    (ho : o ∈ s.pendingTLBI) (hpe : s.pes[q]? = some pe) :
    performStep s o q =
      { s with
        pes := s.pes.set q (performAtPe s.cfg o pe)
        pendingTLBI := s.pendingTLBI.map (fun o' => if o' = o then performedOp s q o else o') } := by
  have hmap : s.pendingTLBI.map (fun o' => if o'.id = o.id then performedOp s q o' else o') =
      s.pendingTLBI.map (fun o' => if o' = o then performedOp s q o else o') := by
    refine List.map_congr_left fun o' ho' => ?_
    by_cases hid : o'.id = o.id
    · obtain rfl := op_eq_of_id hN.distinct ho' ho hid
      simp
    · have hne : o' ≠ o := fun h => hid (congrArg PendingOp.id h)
      simp [hid, hne]
  rw [performStep, State.modifyPe_eq_set s q _ hpe]
  simp only [hmap]

theorem mem_matchSet {cfg : Config} {r : TlbiRecord} {tlb : List TlbEntry} {e : TlbEntry} :
    e ∈ matchSet cfg r tlb ↔ e ∈ tlb ∧ entryMatches cfg r e = true :=
  List.mem_filter

theorem performAtPe_access {cfg : Config} {o : PendingOp} {pe : Pe} {k : Nat} {a a' : Access}
    (ha : pe.accesses[k]? = some a) (ha' : (performAtPe cfg o pe).accesses[k]? = some a') :
    a' = markAccess o (matchSet cfg o.record pe.tlb) a := by
  simpa [performAtPe, ha, eq_comm] using ha'

/-- A mark is all that a perform step adds to an access. -/
theorem markAccess_eq_with (o : PendingOp) (m : List TlbEntry) (a : Access) :
    markAccess o m a = { a with oldOf := (markAccess o m a).oldOf } := by
  unfold markAccess
  split <;> rfl

/-- Settles O36: the perform step is enabled, and its state is that of `performStep`. -/
theorem performRemovesExactlyTheMatchSet : Obligations.PerformRemovesExactlyTheMatchSet := by
  intro s o q pe rest hI hag ho hpe hq hn
  have hN := hI.numbersDistinct
  refine ⟨performAtPe s.cfg o pe, ?_, rfl, fun e => mem_performAtPe_tlb, by simp [performAtPe],
    fun k a a' ha ha' => ?_⟩
  · rw [step_perform_of_first hN ho hag hq hn, ← performedOp_eq hpe]
    exact congrArg _ (performStep_eq (s := { s with agenda := rest }) ⟨hN.distinct, hN.numbered⟩ ho hpe)
  · obtain rfl := performAtPe_access ha ha'
    refine ⟨by rw [markAccess_eq_with], by rw [markAccess_eq_with], by rw [markAccess_eq_with],
      fun ⟨e, he, hetlb, hm⟩ => ?_, fun hnone => ?_⟩
    · rw [markAccess_of_uses ⟨e, he, mem_matchSet.2 ⟨hetlb, hm⟩⟩]
    · refine markAccess_of_not_uses fun ⟨e, he, hem⟩ => ?_
      obtain ⟨hetlb, hm⟩ := mem_matchSet.1 hem
      exact Bool.false_ne_true ((hnone e he hetlb).symm.trans hm)

/-- Settles O37: the perform step tests both. -/
theorem performOnlyOnceAndInTheDomain : Obligations.PerformOnlyOnceAndInTheDomain := by
  intro s s' id q h
  obtain ⟨o, ho, hid, hq, hn, -⟩ := perform_eq_next h
  exact ⟨o, ho, hid, hq, hn⟩

/-! ### The life of an operation (R97, R102) -/

/-- Settles O46: an instruction writes no TLB, and a move of the environment writes one only as gain or lose. -/
theorem tlbChangesOnlyByPerformGainOrLose : Obligations.TlbChangesOnlyByPerformGainOrLose := by
  intro s s' q pe pe' h hpe hpe' hne
  obtain ⟨-, -, hpes⟩ := step_pes h
  obtain ⟨pe₁, hpe₁, hcases⟩ := hpes q pe hpe
  obtain rfl : pe' = pe₁ := Option.some.inj (hpe'.symm.trans hpe₁)
  rcases hcases with rfl | ⟨v, e, rfl, -⟩ | ⟨o, rest, -, hag, -⟩ |
    ⟨f, ev, rest, hag, -, ⟨e, rfl⟩ | ⟨e, rfl⟩ | htlb, rfl⟩
  · exact absurd rfl hne
  · exact absurd rfl hne
  · exact ⟨rest, .inl ⟨o.id, hag⟩⟩
  · exact ⟨rest, .inr (.inl ⟨e, hag⟩)⟩
  · exact ⟨rest, .inr (.inr ⟨e, hag⟩)⟩
  · exact absurd (htlb pe) hne

/-- Settles O47: what has the operation's number after the step is the operation, or the operation performed at one more PE. -/
theorem pendingRecordIsFixedAtIssue : Obligations.PendingRecordIsFixedAtIssue := by
  intro s s' o o' hI h ho ho' hid
  have hN := hI.numbersDistinct
  rcases step_op_before hN h ho' with ⟨hnew, -⟩ | hkept | ⟨o₁, q, ho₁, -, -, rfl⟩
  · exact absurd (hid.symm.trans hnew) (hN.numbered o ho).ne
  · obtain rfl := op_eq_of_id hN.distinct hkept ho hid
    exact ⟨rfl, rfl, rfl⟩
  · obtain rfl := op_eq_of_id hN.distinct ho₁ ho hid
    exact ⟨rfl, rfl, rfl⟩

/-- Settles O48: a step leaves the operation, performs it at one more PE, or completes it. -/
theorem operationsEndOnlyByCompletion : Obligations.OperationsEndOnlyByCompletion := by
  intro s s' o hI h ho
  rcases step_op hI.numbersDistinct ho h with hkept | ⟨q, rest, hag, hperf⟩ | ⟨rest, hag, hc, hgone⟩
  · exact .inl ⟨o, hkept, rfl, fun q hq => .inl hq, fun x hx => hx, fun x hx => .inl hx⟩
  · refine .inl ⟨performedOp s q o, hperf, rfl, fun p hp => ?_, matched_subset_performedOp s q o,
      fun x hx => ?_⟩
    · rcases List.mem_append.1 hp with hp | hp
      · exact .inl hp
      · obtain rfl := List.mem_singleton.1 hp
        exact .inr ⟨rest, hag⟩
    · rcases (mem_performedOp_matched s q o).1 hx with hx | ⟨_, -, rfl, -⟩
      · exact .inl hx
      · exact .inr ⟨rest, hag⟩
  · exact .inr ⟨⟨rest, hag⟩, fun q hq => mem_performedAt_of_completeEnabled hc hq, hgone⟩

/-! ### The completion of the two variants (R101, R59, R60) -/

theorem waitsFor_allAttr_iff {o : PendingOp} {q : Nat} {a : Access} :
    waitsFor { o with attr := .allAttr } q a = true ↔ usesOld o q a = true := by
  simp [waitsFor_iff, usesOld]

theorem waitsFor_excludeXS_iff {o : PendingOp} {q : Nat} {a : Access} :
    waitsFor { o with attr := .excludeXS } q a = true ↔ usesOld o q a = true ∧ a.xs = false := by
  simp [waitsFor_iff, usesOld]

theorem completeEnabled_with_attr_iff {s : State} {o : PendingOp} {attr : Attr} :
    completeEnabled s { o with attr := attr } = true ↔ performedEverywhere s o = true ∧
      ∀ q ∈ osDomain s o.issuer, ∀ pe, s.pes[q]? = some pe → ∀ a ∈ pe.accesses,
        waitsFor { o with attr := attr } q a = true → a.complete = true := by
  simp only [completeEnabled, Bool.and_eq_true, List.all_eq_true, accessesDone_iff]
  rfl

/-- Settles O40: the nXS variant waits for some of the accesses the base variant waits for, and for all of them where no XS bit is 1. -/
theorem nxsCompletesWheneverBaseWould : Obligations.NxsCompletesWheneverBaseWould := by
  intro s o
  refine ⟨?_, fun hxs => Bool.eq_iff_iff.2 ?_⟩ <;>
    simp only [completeEnabled_with_attr_iff, waitsFor_allAttr_iff, waitsFor_excludeXS_iff]
  · rintro ⟨hperf, hdone⟩
    exact ⟨hperf, fun q hq pe hpe a ha ⟨hold, _⟩ => hdone q hq pe hpe a ha hold⟩
  · refine and_congr_right fun _ => forall₂_congr fun q hq => forall₂_congr fun pe hpe =>
      forall₂_congr fun a ha => ?_
    rw [hxs q hq pe hpe a ha, eq_self, and_true]

/-! ### Carrying an operation through (R97, R150) -/

/-- What performing the operation `o` of `s` at the PEs `qs` comes to: the operation is `o'` of `s'`. -/
structure PerformedAll (qs : List Nat) (s : State) (o : PendingOp) (s' : State) (o' : PendingOp) :
    Prop where
  cfg : s'.cfg = s.cfg
  length : s'.pes.length = s.pes.length
  pending : o' ∈ s'.pendingTLBI
  id : o'.id = o.id
  issuer : o'.issuer = o.issuer
  record : o'.record = o.record
  performedAt : o'.performedAt = o.performedAt ++ qs
  others : s'.pendingTLBI.filter (fun x => x.id != o.id) = s.pendingTLBI.filter (fun x => x.id != o.id)
  pes : ∀ q pe, s.pes[q]? = some pe → ∃ pe', s'.pes[q]? = some pe' ∧
    pe'.tlb = (if q ∈ qs then pe.tlb.filter (fun e => !entryMatches s.cfg o.record e) else pe.tlb) ∧
    (pe.accesses = [] → pe'.accesses = [])

theorem PerformedAll.trans {qs₁ qs₂ : List Nat} {s s₁ s₂ : State} {o o₁ o₂ : PendingOp}
    (h₁ : PerformedAll qs₁ s o s₁ o₁) (h₂ : PerformedAll qs₂ s₁ o₁ s₂ o₂) :
    PerformedAll (qs₁ ++ qs₂) s o s₂ o₂ where
  cfg := h₂.cfg.trans h₁.cfg
  length := h₂.length.trans h₁.length
  pending := h₂.pending
  id := h₂.id.trans h₁.id
  issuer := h₂.issuer.trans h₁.issuer
  record := h₂.record.trans h₁.record
  performedAt := by rw [h₂.performedAt, h₁.performedAt, List.append_assoc]
  others := (h₁.id ▸ h₂.others).trans h₁.others
  pes := by
    intro q pe hpe
    obtain ⟨pe₁, hpe₁, htlb₁, hacc₁⟩ := h₁.pes q pe hpe
    obtain ⟨pe₂, hpe₂, htlb₂, hacc₂⟩ := h₂.pes q pe₁ hpe₁
    refine ⟨pe₂, hpe₂, ?_, fun h => hacc₂ (hacc₁ h)⟩
    rw [htlb₂, htlb₁, h₁.cfg, h₁.record]
    by_cases hq₁ : q ∈ qs₁ <;> by_cases hq₂ : q ∈ qs₂ <;> simp [hq₁, hq₂]

/-- A perform step changes no operation but the one of its number. -/
theorem filter_map_performedOp (s : State) (o : PendingOp) (q : Nat) (l : List PendingOp) :
    (l.map (fun x => if x.id = o.id then performedOp s q x else x)).filter (fun x => x.id != o.id) =
      l.filter (fun x => x.id != o.id) := by
  induction l with
  | nil => rfl
  | cons x xs ih => by_cases hx : x.id = o.id <;> simp [hx, ih]

theorem performStep_performedAll {s : State} {o : PendingOp} (ho : o ∈ s.pendingTLBI) (q : Nat)
    (rest : List Event) :
    PerformedAll [q] s o (performStep { s with agenda := rest } o q) (performedOp s q o) where
  cfg := rfl
  length := by simp [performStep]
  pending := List.mem_map.2 ⟨o, ho, if_pos rfl⟩
  id := rfl
  issuer := rfl
  record := rfl
  performedAt := rfl
  others := filter_map_performedOp s o q s.pendingTLBI
  pes := by
    intro p pe hpe
    by_cases hpq : p = q
    · subst hpq
      refine ⟨performAtPe s.cfg o pe, State.modifyPe_get_same _ _ _ hpe, by simp [performAtPe], ?_⟩
      intro hacc
      simp [performAtPe, hacc]
    · exact ⟨pe, (State.modifyPe_get_other _ _ _ hpq).trans hpe, by simp [hpq], fun h => h⟩

/-- The agenda is no part of the invariant. -/
theorem State.Inv.with_agenda {s : State} (hI : s.Inv) (agenda : List Event) :
    State.Inv { s with agenda := agenda } :=
  ⟨hI.pes, fun o ho => (hI.ops o ho).mono rfl rfl le_rfl, hI.idsDistinct, hI.marks, hI.marksUse⟩

/-- The run that performs an operation at PEs of its domain, each for the first time, and goes on. -/
theorem run_performs (qs : List Nat) (tail : List Event) {s : State} {o : PendingOp} (hI : s.Inv)
    (ho : o ∈ s.pendingTLBI) (hdom : ∀ q ∈ qs, q ∈ osDomain s o.issuer)
    (hnd : (o.performedAt ++ qs).Nodup) :
    ∃ s' o', (∀ k, core.run (qs.length + k) { s with agenda := qs.map (.perform o.id) ++ tail } =
        core.run k s') ∧
      s'.Inv ∧ s'.agenda = tail ∧ PerformedAll qs s o s' o' := by
  induction qs generalizing s o with
  | nil =>
    exact ⟨{ s with agenda := tail }, o, fun k => by simp, hI.with_agenda tail, rfl,
      ⟨rfl, rfl, ho, rfl, rfl, rfl, by simp, rfl, fun _ pe hpe => ⟨pe, hpe, rfl, id⟩⟩⟩
  | cons q qs ih =>
    obtain ⟨hq, hdom⟩ := List.forall_mem_cons.1 hdom
    have hn : q ∉ o.performedAt := fun hq => (List.nodup_append.1 hnd).2.2 q hq q List.mem_cons_self rfl
    have hstart := hI.with_agenda (.perform o.id q :: (qs.map (.perform o.id) ++ tail))
    have hstep := step_perform_of_first hstart.numbersDistinct ho rfl hq hn
    have hfirst := performStep_performedAll ho q (qs.map (.perform o.id) ++ tail)
    obtain ⟨s', o', hrun, hI', hag', hrest⟩ :=
      ih (everyStepKeepsTheMachineInvariant _ _ hstart hstep) hfirst.pending
        (by rw [osDomain_congr hfirst.cfg hfirst.length]; exact hdom) (by simpa using hnd)
    refine ⟨s', o', fun k => ?_, hI', hag', hfirst.trans hrest⟩
    rw [List.length_cons, Nat.add_right_comm]
    exact (run_succ hstep).trans (hrun k)

/-- Once performed at each PE of the domain, with no access in flight there, an operation can complete. -/
theorem completeEnabled_of_performedAll {s s' : State} {o o' : PendingOp}
    (h : PerformedAll (osDomain s o.issuer) s o s' o') (hI' : s'.Inv)
    (hidle : ∀ q ∈ osDomain s o.issuer, ∀ pe, s.pes[q]? = some pe → pe.accesses = []) :
    completeEnabled s' o' = true := by
  rw [completeEnabled_iff hI' h.pending, h.issuer, osDomain_congr h.cfg h.length, h.performedAt]
  refine ⟨fun q hq => List.mem_append_right _ hq, fun q hq pe' hpe' a ha => ?_⟩
  obtain ⟨pe, hpe⟩ : ∃ pe, s.pes[q]? = some pe := ⟨_, List.getElem?_eq_getElem (osDomain_lt hq)⟩
  obtain ⟨pe₁, hpe₁, -, hacc⟩ := h.pes q pe hpe
  obtain rfl := Option.some.inj (hpe'.symm.trans hpe₁)
  simp [hacc (hidle q hq pe hpe)] at ha

/-- Settles O50: the run of the perform steps, and then the complete step, which is enabled. -/
theorem performingEverywhereCompletesTheOperation :
    Obligations.PerformingEverywhereCompletesTheOperation := by
  intro s o hI ho hnone hidle
  obtain ⟨s', o', hrun, hI', hag', hall⟩ :=
    run_performs (osDomain s o.issuer) [.complete o.id] hI ho (fun _ hq => hq)
      (by rw [hnone]; exact osDomain_nodup s o.issuer)
  have hcompl := step_complete hI' hall.pending (hall.id ▸ hag')
  rw [if_pos (completeEnabled_of_performedAll hall hI' hidle)] at hcompl
  refine ⟨_, (hrun 1).trans (run_succ hcompl), ?_, fun q pe pe' hpe hpe' => ?_⟩
  · calc s'.pendingTLBI.filter (fun x => x ≠ o')
      _ = s'.pendingTLBI.filter (fun x => x.id != o.id) := by
          rw [← filter_id_ne_eq hI'.idsDistinct hall.pending, hall.id]
      _ = s.pendingTLBI.filter (fun x => x.id != o.id) := hall.others
      _ = s.pendingTLBI.filter (fun x => x ≠ o) := filter_id_ne_eq hI.idsDistinct ho
  · obtain ⟨pe₁, hpe₁, htlb, -⟩ := hall.pes q pe hpe
    obtain rfl := Option.some.inj (hpe₁.symm.trans hpe')
    exact htlb

/-! ### The operand and the TTL field (R77, R79, R90, R93) -/

theorem ipaField_operandOf (pe : Pe) (t t2 : Nat) :
    ipaField (operandOf pe t t2) = (readX pe t2).extractLsb' 0 44 :=
  BitVec.extractLsb'_append_eq_of_le (by decide)

theorem specifiedIpa_operandOf (pe : Pe) (t t2 : Nat) :
    specifiedIpa (operandOf pe t t2) = (readX pe t2).extractLsb' 0 44 ++ 0#12 := by
  rw [specifiedIpa, ipaField_operandOf]

/-- Settles O24, each field at its place in its register. -/
theorem operandFieldsByRegisterBits : Obligations.OperandFieldsByRegisterBits := fun pe t t2 =>
  ⟨ipaField_operandOf pe t t2, res0Hi_operandOf pe t t2, nsBit_operandOf pe t t2,
    res0Mid_operandOf pe t t2, ttlField_operandOf pe t t2, res0Lo_operandOf pe t t2,
    specifiedIpa_operandOf pe t t2⟩

theorem ttlDecode_of_noTTL {cfg : Config} (hf : cfg.featTTL = false) (ttl : BitVec 4) :
    ttlDecode cfg ttl = .any := by
  simp [ttlDecode, hf]

/-- Settles O28: without FEAT_TTL the first test decides, and with it the two halves of each value name its row of R93. -/
theorem ttlDecodeTable : Obligations.TtlDecodeTable := by
  refine ⟨fun cfg hf ttl => ttlDecode_of_noTTL hf ttl, fun cfg hf => ?_⟩
  simp [ttlDecode, hf, ttlGranule, ttlLevel]

/-- The TTL field of a record by the register bits that hold it (R83, D22). -/
theorem liveTtl_operandOf (cfg : Config) (pe : Pe) (t t2 : Nat) :
    liveTtl cfg (ttlField (operandOf pe t t2)) =
      if cfg.featTTL = false ∨ (readX pe t).extractLsb' 46 2 = 0 then 0
      else (readX pe t).extractLsb' 44 4 := by
  rw [liveTtl, ttlField_operandOf, ttlGranule_extract]
  cases cfg.featTTL <;> simp

/-! ### The two instructions (R100, R101) -/

/-- The invalidation arm where nothing stops it, with its next state by the register bits. -/
theorem invalidate_issues {s : State} {pe : Pe} {t t2 : Nat} {ss : SecurityState} {space : IpaSpace}
    {nsRes0 : Bool} {ttl : BitVec 4} (a : Attr) (hpe : s.pes[s.cur]? = some pe)
    (hss : securityStateAtEL1 s.cfg pe = some ss)
    (hsp : ipaSpaceOf s.cfg ss (nsBit (operandOf pe t t2)) = some (space, nsRes0))
    (httl : (res0BitSet s.cfg nsRes0 (operandOf pe t t2) = false ∧
        ttl = (readX pe t).extractLsb' 44 4) ∨
      (s.cfg.res0Policy = .ignore ∧
        ttl = if s.cfg.featTTL = false ∨ (readX pe t).extractLsb' 46 2 = 0 then 0
          else (readX pe t).extractLsb' 44 4)) :
    invalidate a t t2 pe s = .next
      { s with
        pes := s.pes.set s.cur { pe with pc := pe.pc + BitVec.ofNat 64 s.cfg.instrBytes }
        pendingTLBI := s.pendingTLBI ++
          [⟨s.nextOp, s.cur, ⟨ss, (readX pe t2).extractLsb' 0 44 ++ 0#12, space,
            pe.vmid % 2 ^ s.cfg.vmidWidth, ttl⟩, a, [], []⟩]
        nextOp := s.nextOp + 1 } := by
  have hlive : liveTtl s.cfg (ttlField (operandOf pe t t2)) = ttl := by
    rcases httl with ⟨hres, rfl⟩ | ⟨-, rfl⟩
    · rw [liveTtl_of_res0 hres, ttlField_operandOf]
    · exact liveTtl_operandOf s.cfg pe t t2
  rw [invalidate_next hss hsp (httl.imp And.left And.left), advancePc_addPending_eq hpe,
    specifiedIpa_operandOf, hlive]
  rfl

/-- Settles O10: the base variant reaches the invalidation with `AllAttr`. -/
theorem baseVariantIssuesAnAllAttrOperation : Obligations.BaseVariantIssuesAnAllAttrOperation := by
  intro s pe t t2 ss space nsRes0 ttl hpe ht hd hel hss hsp httl
  rw [exec_base_eq_invalidate hpe ht hd hel]
  exact invalidate_issues .allAttr hpe hss hsp httl

/-- Settles O11: with FEAT_XS the nXS variant reaches the invalidation with `ExcludeXS`. -/
theorem nxsVariantIssuesAnExcludeXsOperation : Obligations.NxsVariantIssuesAnExcludeXsOperation := by
  intro s pe t t2 ss space nsRes0 ttl hpe ht hd hx hel hss hsp httl
  rw [exec_nxs_eq_invalidate hpe ht hd hx hel]
  exact invalidate_issues .excludeXS hpe hss hsp httl

theorem byExceptionLevel_of_el3_noEl2 {s : State} {pe : Pe} {a : Attr} {t t2 : Nat}
    (hel : pe.el = .el3) (h2 : el2Enabled s.cfg pe = false) :
    byExceptionLevel a t t2 pe s = .next (advancePc s) := by
  simp [byExceptionLevel, hel, h2]

/-- Settles O17: the test of the Exception level is the same in both variants. -/
theorem el3WithoutEl2IsANoOperation : Obligations.El3WithoutEl2IsANoOperation := by
  intro s pe t t2 hpe ht hd hel h2
  rw [← advancePc_eq s hpe]
  refine ⟨?_, fun hx => ?_⟩
  · rw [exec_base_eq_byExceptionLevel hpe ht hd, byExceptionLevel_of_el3_noEl2 hel h2]
  · rw [exec_nxs_eq_byExceptionLevel hpe ht hd hx, byExceptionLevel_of_el3_noEl2 hel h2]

/-! ### The frame of an execution (R102, R38) -/

/-- All that an execution can write: the program counter and the recorded exception of the executing PE, operations added, and the counter of their numbers. -/
theorem exec_eq_with {i : Instr} {s s' : State} (h : exec i s = .next s') :
    ∃ pe v e added n, s.pes[s.cur]? = some pe ∧ s' =
      { s with
        pes := s.pes.set s.cur { pe with pc := v, exception := e }
        pendingTLBI := s.pendingTLBI ++ added
        nextOp := n } := by
  obtain ⟨pe, hpe, ⟨c, rfl⟩ | ⟨rfl, -⟩ | ⟨rfl, -⟩ | ⟨-, r, a, rfl⟩⟩ := execHasFourOutcomes i s s' h
  · exact ⟨pe, _, _, [], _, hpe, by rw [List.append_nil]⟩
  · exact ⟨pe, _, _, [], _, hpe, by rw [List.append_nil]⟩
  · exact ⟨pe, _, _, [], _, hpe, by rw [List.append_nil]⟩
  · exact ⟨pe, _, _, _, _, hpe, rfl⟩

/-- Settles O21, from what an execution can write. -/
theorem execFrame : Obligations.ExecFrame := by
  intro i s s' h
  obtain ⟨pe₀, v, e, added, n, hpe₀, rfl⟩ := exec_eq_with h
  refine ⟨rfl, rfl, rfl, List.length_set, ⟨added, rfl⟩, fun q pe pe' hpe hpe' => ?_⟩
  by_cases hq : q = s.cur
  · subst hq
    obtain rfl := Option.some.inj (hpe₀.symm.trans hpe)
    obtain ⟨hlt, -⟩ := List.getElem?_eq_some_iff.1 hpe
    obtain rfl := Option.some.inj ((List.getElem?_set_self hlt).symm.trans hpe')
    exact ⟨fun _ => rfl, rfl, rfl, rfl, rfl, rfl, rfl, rfl, rfl, rfl, rfl, fun _ => rfl,
      fun hne => absurd rfl hne⟩
  · obtain rfl := Option.some.inj
      (hpe.symm.trans ((List.getElem?_set_ne (Ne.symm hq)).symm.trans hpe'))
    exact ⟨fun _ => rfl, rfl, rfl, rfl, rfl, rfl, rfl, rfl, rfl, rfl, rfl, fun _ => rfl, fun _ => rfl⟩

/-! ### Executing again (R104) -/

/-- The `Attr` with which an instruction issues its operations (R100, R101). -/
def issuedAttr : Instr → Attr
  | .tlbipIpas2le1os _ => .allAttr
  | .tlbipIpas2le1osnxs _ => .excludeXS

/-- An execution that takes the invalidation path is the invalidation arm. -/
theorem exec_of_takesInvalidation {i : Instr} {s : State} {pe : Pe} (hpe : s.pes[s.cur]? = some pe)
    (h : takesInvalidation s.cfg pe i = true) :
    ∃ t2, pairOf s.cfg i.rt = some t2 ∧ exec i s = invalidate (issuedAttr i) i.rt t2 pe s := by
  simp only [takesInvalidation, invalidating, Bool.and_eq_true, Bool.or_eq_true, beq_iff_eq] at h
  obtain ⟨⟨⟨hd, hel⟩, hpair⟩, hx⟩ := h
  obtain ⟨t2, ht⟩ := Option.isSome_iff_exists.1 hpair
  refine ⟨t2, ht, ?_⟩
  cases i with
  | tlbipIpas2le1os t => exact exec_base_eq_invalidate hpe ht hd hel
  | tlbipIpas2le1osnxs t => exact exec_nxs_eq_invalidate hpe ht hd hx hel

/-- An execution that issues an operation takes the invalidation path. -/
theorem takesInvalidation_of_issues {i : Instr} {s s1 : State} {pe : Pe}
    (hpe : s.pes[s.cur]? = some pe) (h : exec i s = .next s1)
    (hne : s1.pendingTLBI ≠ s.pendingTLBI) : takesInvalidation s.cfg pe i = true := by
  obtain ⟨pe₁, hpe₁, hcases⟩ := exec_cases h
  obtain rfl := Option.some.inj (hpe.symm.trans hpe₁)
  rcases hcases with ⟨c, rfl⟩ | ⟨rfl, -⟩ | ⟨rfl, -⟩ | ⟨a, t2, hd, hel, ht, -⟩
  · exact absurd rfl hne
  · exact absurd rfl hne
  · exact absurd rfl hne
  · have hpath : invalidating s.cfg pe = true := invalidating_eq_true hd hel
    cases i with
    | tlbipIpas2le1os t => simp [takesInvalidation, hpath, ht]
    | tlbipIpas2le1osnxs t =>
      cases hx : s.cfg.featXS with
      | true => simp [takesInvalidation, hpath, ht, hx]
      | false =>
        obtain rfl := Host.Outcome.next.inj ((exec_nxs_of_noXS hpe ht hd hx).symm.trans h)
        exact absurd rfl hne

/-- What an invalidation issues depends on the parameters and the PE, and not on the program counter: any state of the same parameters issues the same record. -/
theorem invalidate_again {a : Attr} {t t2 : Nat} {pe : Pe} {s s1 : State}
    (h : invalidate a t t2 pe s = .next s1) :
    ∃ r, s1 = advancePc (addPending r a s) ∧ ∀ s2 v, s2.cfg = s.cfg →
      invalidate a t t2 { pe with pc := v } s2 = .next (advancePc (addPending r a s2)) := by
  obtain ⟨ss, space, nsRes0, hss, hsp, rfl⟩ := invalidate_eq_next h
  have hres : res0BitSet s.cfg nsRes0 (operandOf pe t t2) = false ∨ s.cfg.res0Policy = .ignore := by
    cases hset : res0BitSet s.cfg nsRes0 (operandOf pe t t2) with
    | false => exact .inl rfl
    | true =>
      cases hpol : s.cfg.res0Policy with
      | ignore => exact .inr rfl
      | refuse =>
        rw [invalidate_eq_res0Set hss hsp hset hpol] at h
        cases h
  refine ⟨_, rfl, fun s2 v hcfg => ?_⟩
  rw [← hcfg] at hss hsp hres ⊢
  exact invalidate_next (pe := { pe with pc := v }) hss hsp hres

/-- Settles O23: the first execution took the invalidation path, and left all that the path reads. -/
theorem repeatedExecutionIssuesTwoOperations : Obligations.RepeatedExecutionIssuesTwoOperations := by
  intro i s s1 h hne
  obtain ⟨pe, hpe, -⟩ := exec_cases h
  have hpath := takesInvalidation_of_issues hpe h hne
  obtain ⟨t2, ht, hexec⟩ := exec_of_takesInvalidation hpe hpath
  obtain ⟨r, rfl, hagain⟩ := invalidate_again (hexec.symm.trans h)
  have hpe' := State.modifyPe_get_same s s.cur
    (fun pe => { pe with pc := pe.pc + BitVec.ofNat 64 s.cfg.instrBytes }) hpe
  obtain ⟨t2', ht', hexec'⟩ := exec_of_takesInvalidation
    (s := advancePc (addPending r (issuedAttr i) s)) hpe' hpath
  obtain rfl : t2 = t2' := Option.some.inj (ht.symm.trans ht')
  refine ⟨_, ⟨s.nextOp, s.cur, r, issuedAttr i, [], []⟩, hexec'.trans (hagain _ _ rfl), rfl, ?_⟩
  simp

/-! ### The match predicate (R95) -/

theorem descInScope_iff {ttl : BitVec 4} {e : TlbEntry} :
    descInScope ttl e = true ↔
      e.descBits = .bits128 ∨ (e.descBits = .bits64 ∧ ttl.extractLsb' 2 2 = 0b00) := by
  simp [descInScope, ttlGranule]

theorem eq_regimeOf_iff {regime : Regime} {ss : SecurityState} :
    regime = regimeOf ss ↔
      (ss = .secure → regime = .secureEL10) ∧ (ss = .nonSecure → regime = .nonSecureEL10) ∧
      (ss = .realm → regime = .realmEL10) := by
  cases ss <;> simp [regimeOf]

theorem covers_iff {e : TlbEntry} {a : Ipa} :
    covers e a = true ↔
      e.ipaBase.toNat ≤ a.toNat ∧ a.toNat < e.ipaBase.toNat + e.ipaSize := by
  simp [covers]

theorem ttlConsistent_iff {m : TtlMeaning} {e : TlbEntry} :
    ttlConsistent m e = true ↔ ∀ g l, m = .level g l → e.granule = g ∧ e.level = l := by
  cases m with
  | any => simp [ttlConsistent]
  | level g l => simp [ttlConsistent]

/-- Settles O30, one requirement at a time. -/
theorem matchMeetsAllRequirements : Obligations.MatchMeetsAllRequirements := by
  intro cfg r e
  simp only [entryMatches, Bool.and_eq_true, beq_iff_eq, descInScope_iff, eq_regimeOf_iff, covers_iff,
    ttlConsistent_iff, and_assoc]

/-- Settles O31: no end of the range lies inside the page. -/
theorem rangeTestIsTheSameOverThePage : Obligations.RangeTestIsTheSameOverThePage := by
  intro e page a hbase hsize hpage hle hlt
  rw [Bool.eq_iff_iff, covers_iff, covers_iff]
  omega

end Sys2Proof.Machine

/-! PROOFS. The family of 60_exceptions.md: the trap, the causes of Undefined, and the exception that a PE has recorded. -/

namespace Sys2Proof.Machine

/-! ### The exceptions of the Exception level's tests (R121, R123, R125) -/

section LevelExceptions

variable {s : State} {pe : Pe} {a : Attr} {t t2 : Nat}

/-- U3: EL0. -/
theorem byExceptionLevel_of_el0 (hel : pe.el = .el0) :
    byExceptionLevel a t t2 pe s = .next (takeException (.undefined .u3) s) := by
  simp [byExceptionLevel, hel]

/-- The trap: EL1 with EL2 enabled and HCR_EL2.NV 1. -/
theorem byExceptionLevel_of_el1_nv (hel : pe.el = .el1) (h2 : el2Enabled s.cfg pe = true)
    (hnv : hcrNV s.cfg pe = true) :
    byExceptionLevel a t t2 pe s = .next (takeException (.systemAccessTrap .el2 0x14) s) := by
  simp [byExceptionLevel, hel, h2, hnv]

/-- U4: EL1 without the trap's conditions. -/
theorem byExceptionLevel_of_el1_noNv (hel : pe.el = .el1)
    (hno : el2Enabled s.cfg pe = false ∨ hcrNV s.cfg pe = false) :
    byExceptionLevel a t t2 pe s = .next (takeException (.undefined .u4) s) := by
  rcases hno with h2 | hnv
  · simp [byExceptionLevel, hel, h2]
  · simp [byExceptionLevel, hel, hnv]

end LevelExceptions

theorem el2Enabled_eq_false_iff {cfg : Config} {pe : Pe} :
    el2Enabled cfg pe = false ↔ cfg.haveEL2 = false ∨ pe.el2EnabledField = false :=
  Bool.and_eq_false_iff

theorem hcrNV_eq_false_iff {cfg : Config} {pe : Pe} :
    hcrNV cfg pe = false ↔ cfg.haveNV = false ∨ pe.hcrNVField = false :=
  Bool.and_eq_false_iff

/-- Both variants answer what the Exception level's tests answer, where these answer one thing for either `Attr`. -/
theorem exec_both_of_byExceptionLevel {s : State} {pe : Pe} {t t2 : Nat}
    {out : Host.Outcome State Fault Refusal} (hpe : s.pes[s.cur]? = some pe)
    (ht : pairOf s.cfg t = some t2) (hd : s.cfg.featD128 = true)
    (h : ∀ a, byExceptionLevel a t t2 pe s = out) :
    exec (.tlbipIpas2le1os t) s = out ∧
      (s.cfg.featXS = true → exec (.tlbipIpas2le1osnxs t) s = out) :=
  ⟨(exec_base_eq_byExceptionLevel hpe ht hd).trans (h .allAttr),
    fun hx => (exec_nxs_eq_byExceptionLevel hpe ht hd hx).trans (h .excludeXS)⟩

/-- Settles O18: the test of the Exception level is the same in both variants. -/
theorem el1WithNvTrapsToEl2 : Obligations.El1WithNvTrapsToEl2 := by
  intro s pe t t2 hpe ht hd hel hhave2 h2field hhaveNV hnvField
  have h2 : el2Enabled s.cfg pe = true := by simp [el2Enabled, hhave2, h2field]
  have hnv : hcrNV s.cfg pe = true := by simp [hcrNV, hhaveNV, hnvField]
  rw [← takeException_eq _ s hpe]
  exact exec_both_of_byExceptionLevel hpe ht hd fun _ => byExceptionLevel_of_el1_nv hel h2 hnv

/-- Settles O19, one test of R125 after the other. -/
theorem undefinedCausesInOrder : Obligations.UndefinedCausesInOrder := by
  intro s pe t hpe undef
  have hundef (c : UndefCause) : undef c = takeException (.undefined c) s :=
    (takeException_eq _ s hpe).symm
  simp only [hundef]
  refine ⟨fun ht => ?u5, fun t2 ht => ⟨fun hd => ?u1, fun hd => ⟨fun hx => ?u2, fun hel => ?u3,
    fun hel hno => ?u4⟩⟩⟩
  case u5 => exact ⟨exec_of_noPair hpe ht, exec_of_noPair hpe ht⟩
  case u1 => exact ⟨exec_of_noD128 hpe ht hd, exec_of_noD128 hpe ht hd⟩
  case u2 => exact exec_nxs_of_noXS hpe ht hd hx
  case u3 => exact exec_both_of_byExceptionLevel hpe ht hd fun _ => byExceptionLevel_of_el0 hel
  case u4 =>
    rw [← or_assoc, ← el2Enabled_eq_false_iff, ← hcrNV_eq_false_iff] at hno
    exact exec_both_of_byExceptionLevel hpe ht hd fun _ => byExceptionLevel_of_el1_noNv hel hno

/-! ### A recorded exception (R126, R152) -/

/-- The environment's change keeps the recorded exception and the program counter. -/
theorem EnvChange.exception_pc {cfg : Config} {f : Pe → Pe} (hf : EnvChange cfg f) (pe : Pe) :
    (f pe).exception = pe.exception ∧ (f pe).pc = pe.pc := by
  rw [hf.eq_with pe]
  exact ⟨rfl, rfl⟩

/-- A step keeps the exception and the program counter of a PE that has recorded one: only an instruction writes them, and it runs at a PE that has none. -/
theorem step_keeps_exception {s s' : State} {q : Nat} {pe : Pe} {e : Exc} (h : step s = .next s')
    (hpe : s.pes[q]? = some pe) (he : pe.exception = some e) :
    ∃ pe', s'.pes[q]? = some pe' ∧ pe'.exception = some e ∧ pe'.pc = pe.pc := by
  obtain ⟨-, -, hpes⟩ := step_pes h
  obtain ⟨pe', hpe', hcases⟩ := hpes q pe hpe
  refine ⟨pe', hpe', ?_⟩
  rcases hcases with rfl | ⟨v, e', -, hnone, -⟩ | ⟨o, rest, -, -, rfl⟩ | ⟨f, ev, rest, -, hf, -, rfl⟩
  · exact ⟨he, rfl⟩
  · rw [he] at hnone
    cases hnone
  · exact ⟨he, rfl⟩
  · obtain ⟨hexc, hpc⟩ := hf.exception_pc pe
    exact ⟨hexc.trans he, hpc⟩

theorem isFinal_eq_false_of_exception {s : State} {q : Nat} {pe : Pe} {e : Exc}
    (hpe : s.pes[q]? = some pe) (he : pe.exception = some e) : s.isFinal = false := by
  refine Bool.eq_false_iff.2 fun hfinal => ?_
  simp only [State.isFinal, Bool.and_eq_true, List.all_eq_true] at hfinal
  obtain ⟨hall, -⟩ := hfinal
  obtain ⟨-, hnone⟩ := hall pe (List.mem_of_getElem? hpe)
  simp [he] at hnone

/-- Settles O44: the PE that keeps its exception is one that a final state does not have. -/
theorem exceptionIsTerminal : Obligations.ExceptionIsTerminal := by
  intro s s' q pe e hpe he h
  obtain ⟨pe', hpe', he', hpc⟩ := step_keeps_exception h hpe he
  exact ⟨isFinal_eq_false_of_exception hpe' he', pe', hpe', he', hpc⟩

/-- The step of a PE that has recorded an exception is the fault that names it. -/
theorem runCurrent_of_exception {s : State} {pe : Pe} {e : Exc} (hpe : s.pes[s.cur]? = some pe)
    (he : pe.exception = some e) : runCurrent s = .fault (.exception e) := by
  simp [runCurrent, withCur_of hpe, he]

/-- A step with no move listed is the executing PE's. -/
theorem step_of_agenda_nil {s : State} (h : s.agenda = []) : step s = runCurrent s := by
  simp [step, h]

/-- Settles O43: either way the step is that of the PE with the exception. -/
theorem faultedPeTakesNoStep : Obligations.FaultedPeTakesNoStep := by
  intro s pe e rest p hpe he
  refine ⟨fun hag => ?_, fun hag hcur => ?_⟩
  · rw [step_of_agenda hag]
    exact runCurrent_of_exception (s := { s with cur := p, agenda := rest }) hpe he
  · subst hcur
    rw [step_of_agenda_nil hag]
    exact runCurrent_of_exception hpe he

end Sys2Proof.Machine

/-! PROOFS. The family of 70_reset_and_hazards.md: fetching in place and past the end, 64-bit entries, reset, the places of the program counters, and what the launch premises exclude. -/

namespace Sys2Proof.Machine

/-! ### The step of a PE at an instruction, and of a PE that has exited (R152) -/

theorem decodeFetched_of_decode {b0 b1 b2 b3 : Byte} {i : Instr} {rest : List Byte}
    (h : decode [b0, b1, b2, b3] = .ok (i, rest)) : decodeFetched b0 b1 b2 b3 = .next i := by
  simp [decodeFetched, h]

/-- Settles O6: the fetch is in place, and the move `run s.cur` leaves the state with `s.cur` executing. -/
theorem stepRunsTheDecodedInstruction : Obligations.StepRunsTheDecodedInstruction := by
  intro s pe b0 b1 b2 b3 i hpe hex hal hin htop h0 h1 h2 h3 hdec
  have hrun : runCurrent s = exec i s := by
    rw [runCurrent_of hpe hex, fetch_of hal hin htop (fetchBytes_of h0 h1 h2 h3),
      decodeFetched_of_decode hdec, andThen_next]
  exact ⟨fun hag => (step_of_agenda_nil hag).trans hrun, fun _ => hrun⟩

theorem exitedPc_iff {cfg : Config} {pe : Pe} :
    exitedPc cfg pe = true ↔ pe.pc.toNat = pe.prog.base.toNat + cfg.instrBytes * pe.prog.len :=
  decide_eq_true_iff

theorem fetch_of_exited {cfg : Config} {pe : Pe} (hal : pe.pc.toNat % 4 = 0)
    (h : exitedPc cfg pe = true) : fetch cfg pe = .fault .exited := by
  simp [fetch, hal, h]

/-- Settles O9. -/
theorem exitedPeTakesNoStep : Obligations.ExitedPeTakesNoStep := by
  intro s pe hpe hex hal hexit
  rw [runCurrent_of hpe hex, fetch_of_exited hal (exitedPc_iff.2 hexit), andThen_fault]

/-- Settles O51: every PE of a final state is one of O9. -/
theorem finalStateHasNoInstructionLeft : Obligations.FinalStateHasNoInstructionLeft := by
  intro s p rest hfinal hal hp hag
  simp only [State.isFinal, Bool.and_eq_true, List.all_eq_true, Option.isNone_iff_eq_none] at hfinal
  obtain ⟨hall, -⟩ := hfinal
  obtain ⟨hexit, hex⟩ := hall _ (List.getElem_mem hp)
  rw [step_of_agenda hag]
  exact exitedPeTakesNoStep { s with cur := p, agenda := rest } _ (List.getElem?_eq_getElem hp) hex
    (hal _ (List.getElem_mem hp)) (exitedPc_iff.1 hexit)

/-! ### Entries from 64-bit descriptors (R94, R144) -/

/-- A TTL field that names no granule gives no level. -/
theorem ttlDecode_of_ttlGranule_zero (cfg : Config) {ttl : BitVec 4} (h : ttlGranule ttl = 0) :
    ttlDecode cfg ttl = .any := by
  simp [ttlDecode, h]

/-- Settles O33: the requirement of O30 on 64-bit entries, under which no TTL value gives a level. -/
theorem sixtyFourBitEntriesNeedNoTtl : Obligations.SixtyFourBitEntriesNeedNoTtl := by
  intro cfg r e hm
  obtain ⟨-, -, hdesc, -⟩ := (matchMeetsAllRequirements cfg r e).1 hm
  rcases hdesc with h128 | ⟨h64, httl⟩
  · exact ⟨fun h64 => absurd (h128.symm.trans h64) (by decide), fun _ _ _ => h128⟩
  · refine ⟨fun _ => httl, fun g l hlevel => ?_⟩
    rw [ttlDecode_of_ttlGranule_zero cfg httl] at hlevel
    cases hlevel

/-! ### Reset (R39, R142) -/

theorem State.reset_inv : State.reset.Inv where
  pes pe hpe := by
    obtain rfl := eq_reset_of_mem hpe
    exact ⟨Memory.wf_nil, List.nodup_nil, fun _ he => absurd he List.not_mem_nil⟩
  ops _ ho := absurd ho List.not_mem_nil
  idsDistinct := List.nodup_nil
  marks pe hpe a ha := by
    obtain rfl := eq_reset_of_mem hpe
    exact absurd ha List.not_mem_nil
  marksUse _ _ _ _ _ _ ho := absurd ho List.not_mem_nil

theorem State.reset_pcInv : State.reset.PcInv := by
  refine ⟨rfl, fun pe hpe => ?_⟩
  obtain rfl := eq_reset_of_mem hpe
  exact ⟨rfl, by decide, 0, le_rfl, rfl⟩

/-- Settles O56. -/
theorem resetMeetsInvariantsAndLaunchPremises : Obligations.ResetMeetsInvariantsAndLaunchPremises :=
  ⟨State.reset_inv, State.reset_pcInv, by decide⟩

/-! ### What a step does to a program counter (R23, R152) -/

/-- A PE after a change of one PE is the PE before it, or the PE changed. -/
theorem State.eq_or_eq_of_modifyPe {s : State} {p q : Nat} {f : Pe → Pe} {pe pe' : Pe}
    (hpe : s.pes[q]? = some pe) (hpe' : (s.modifyPe p f).pes[q]? = some pe') :
    pe' = pe ∨ (q = p ∧ pe' = f pe) := by
  by_cases hq : q = p
  · subst hq
    rw [State.modifyPe_get_same s q f hpe] at hpe'
    exact .inr ⟨rfl, (Option.some.inj hpe').symm⟩
  · rw [State.modifyPe_get_other s p f hq] at hpe'
    exact .inl (Option.some.inj (hpe'.symm.trans hpe))

/-- An execution moves the executing PE's program counter only, and past an invalidation only where the PE has a Security state. -/
theorem exec_pc {i : Instr} {s s' : State} {q : Nat} {pe pe' : Pe} (h : exec i s = .next s')
    (hpe : s.pes[q]? = some pe) (hpe' : s'.pes[q]? = some pe') :
    pe'.pc = pe.pc ∨
      (q = s.cur ∧ pe'.pc = pe.pc + BitVec.ofNat 64 s.cfg.instrBytes ∧
        (invalidating s.cfg pe = true → securityStateAtEL1 s.cfg pe ≠ none)) := by
  obtain ⟨pe₀, hpe₀, hcases⟩ := exec_cases h
  rcases hcases with ⟨c, rfl⟩ | ⟨rfl, -⟩ | ⟨rfl, hel, h2⟩ | ⟨a, t2, -, -, -, hinv⟩
  · rcases State.eq_or_eq_of_modifyPe hpe hpe' with rfl | ⟨-, rfl⟩ <;> exact .inl rfl
  · rcases State.eq_or_eq_of_modifyPe hpe hpe' with rfl | ⟨-, rfl⟩ <;> exact .inl rfl
  · rcases State.eq_or_eq_of_modifyPe hpe hpe' with rfl | ⟨rfl, rfl⟩
    · exact .inl rfl
    · obtain rfl := Option.some.inj (hpe.symm.trans hpe₀)
      exact .inr ⟨rfl, rfl, by simp [invalidating, hel, h2]⟩
  · obtain ⟨ss, space, nsRes0, hss, -, rfl⟩ := invalidate_eq_next hinv
    rcases State.eq_or_eq_of_modifyPe (s := addPending _ a s) hpe hpe' with rfl | ⟨rfl, rfl⟩
    · exact .inl rfl
    · obtain rfl := Option.some.inj (hpe.symm.trans hpe₀)
      exact .inr ⟨rfl, rfl, fun _ => by simp [hss]⟩

/-- A step moves a program counter only past an instruction that the PE fetched, and past an invalidation only where the PE has a Security state. -/
theorem step_pc {s s' : State} {q : Nat} {pe pe' : Pe} (h : step s = .next s')
    (hpe : s.pes[q]? = some pe) (hpe' : s'.pes[q]? = some pe') :
    pe'.pc = pe.pc ∨
      (pe'.pc = pe.pc + BitVec.ofNat 64 s.cfg.instrBytes ∧ (∃ i, fetch s.cfg pe = .next i) ∧
        (invalidating s.cfg pe = true → securityStateAtEL1 s.cfg pe ≠ none)) := by
  cases step_cases h with
  | instr r pe₀ i hr hpe₀ _ hf he =>
    obtain ⟨hcfg, hpes⟩ : r.cfg = s.cfg ∧ r.pes = s.pes := by
      rcases hr with ⟨-, rfl⟩ | ⟨p, rest, -, rfl⟩ <;> exact ⟨rfl, rfl⟩
    rw [← hpes] at hpe
    rw [← hcfg]
    rcases exec_pc he hpe hpe' with hpc | ⟨rfl, hpc, hss⟩
    · exact .inl hpc
    · obtain rfl := Option.some.inj (hpe.symm.trans hpe₀)
      exact .inr ⟨hpc, ⟨i, hf⟩, hss⟩
  | perform o p rest _ _ _ _ hs =>
    subst hs
    rcases State.eq_or_eq_of_modifyPe (s := { s with agenda := rest }) hpe hpe' with
      rfl | ⟨-, rfl⟩ <;> exact .inl rfl
  | complete o rest _ _ _ hs =>
    subst hs
    obtain rfl := Option.some.inj (hpe.symm.trans hpe')
    exact .inl rfl
  | env p f ev rest _ hf _ _ hs =>
    subst hs
    rcases State.eq_or_eq_of_modifyPe (s := { s with agenda := rest }) hpe hpe' with rfl | ⟨-, rfl⟩
    · exact .inl rfl
    · exact .inl (hf.exception_pc pe).2

/-! ### Invariants of every PE, and of every run -/

/-- What is said of each PE and the parameters holds after a step where it held before, if the step keeps it at each PE. -/
theorem step_keeps_forall_pes {P : Config → Pe → Prop} {s s' : State}
    (hpe : ∀ (q : Nat) (pe pe' : Pe), s.pes[q]? = some pe → s'.pes[q]? = some pe' →
      P s.cfg pe → P s.cfg pe')
    (h : step s = .next s') (hP : ∀ pe ∈ s.pes, P s.cfg pe) : ∀ pe ∈ s'.pes, P s'.cfg pe := by
  intro pe' hmem
  obtain ⟨q, hpe'⟩ := List.mem_iff_getElem?.1 hmem
  obtain ⟨pe, hq⟩ := exists_pe_before h hpe'
  obtain ⟨hcfg, -, -⟩ := step_pes h
  exact hcfg ▸ hpe q pe pe' hq hpe' (hP pe (List.mem_of_getElem? hq))

/-- What every step keeps, every run keeps. -/
theorem run_keeps {P : State → Prop} (hstep : ∀ s s', P s → step s = .next s' → P s') (k : Nat)
    {s s' : State} (hP : P s) (hrun : core.run k s = .next s') : P s' := by
  induction k generalizing s with
  | zero => exact Host.Outcome.next.inj hrun ▸ hP
  | succ k ih =>
    obtain ⟨s₁, hs, hrun⟩ := run_succ_eq_next hrun
    exact ih (hstep s s₁ hP hs) hrun

/-! ### The places of the program counters (R152) -/

theorem step_keeps_prog {s s' : State} {q : Nat} {pe pe' : Pe} (h : step s = .next s')
    (hpe : s.pes[q]? = some pe) (hpe' : s'.pes[q]? = some pe') : pe'.prog = pe.prog := by
  rw [step_pe_eq_with h hpe hpe']

/-- From an instruction of its program, a program counter in place advances to a place. -/
theorem Pe.PcGood.advance {cfg : Config} {pe pe' : Pe} (hg : pe.PcGood) (h4 : cfg.instrBytes = 4)
    (hin : inProgram cfg pe = true) (hprog : pe'.prog = pe.prog)
    (hpc : pe'.pc = pe.pc + BitVec.ofNat 64 cfg.instrBytes) : pe'.PcGood := by
  obtain ⟨hbase, htop, k, hk, hplace⟩ := hg
  simp only [inProgram, Bool.and_eq_true, decide_eq_true_eq, h4] at hin
  obtain ⟨-, hlt⟩ := hin
  refine ⟨hprog ▸ hbase, hprog ▸ htop, k + 1, ?_, ?_⟩
  · rw [hprog]
    omega
  · rw [hprog, hpc, h4, BitVec.toNat_add, BitVec.toNat_ofNat]
    omega

theorem step_keeps_pcGood {s s' : State} {q : Nat} {pe pe' : Pe} (h : step s = .next s')
    (h4 : s.cfg.instrBytes = 4) (hpe : s.pes[q]? = some pe) (hpe' : s'.pes[q]? = some pe')
    (hg : pe.PcGood) : pe'.PcGood := by
  have hprog := step_keeps_prog h hpe hpe'
  rcases step_pc h hpe hpe' with hpc | ⟨hpc, ⟨i, hf⟩, -⟩
  · obtain ⟨hbase, htop, hplace⟩ := hg
    exact ⟨hprog ▸ hbase, hprog ▸ htop, by rw [hprog, hpc]; exact hplace⟩
  · obtain ⟨-, hin, -⟩ := fetch_eq_next hf
    exact hg.advance h4 hin hprog hpc

/-- Settles O53: a program counter stays, or moves past an instruction that the PE fetched. -/
theorem everyStepKeepsProgramCountersInPlace : Obligations.EveryStepKeepsProgramCountersInPlace := by
  intro s s' ⟨h4, hall⟩ h
  obtain ⟨hcfg, -, -⟩ := step_pes h
  exact ⟨hcfg ▸ h4, step_keeps_forall_pes (P := fun _ pe => pe.PcGood)
    (fun _ _ _ hpe hpe' => step_keeps_pcGood h h4 hpe hpe') h hall⟩

theorem State.launch_pe {s : State} (h : s.launch = true) {pe : Pe} (hpe : pe ∈ s.pes) :
    peLaunch s.cfg pe = true := by
  simp only [State.launch, Bool.and_eq_true, List.all_eq_true] at h
  obtain ⟨hall, -⟩ := h
  exact hall pe hpe

/-- A PE at launch is at the first instruction of its 4-aligned program. -/
theorem pc_of_peLaunch {cfg : Config} {pe : Pe} (h : peLaunch cfg pe = true) :
    pe.pc = pe.prog.base ∧ pe.pc.toNat % 4 = 0 := by
  simp only [peLaunch, pcAligned, pcAtBase, Bool.and_eq_true, and_assoc, beq_iff_eq,
    decide_eq_true_eq] at h
  obtain ⟨-, -, -, -, -, -, hal, -, hbase, -⟩ := h
  exact ⟨hbase, hal⟩

theorem State.launch_pcInv {s : State} (h : s.launch = true) (h4 : s.cfg.instrBytes = 4)
    (htop : ∀ pe ∈ s.pes, pe.prog.base.toNat + 4 * pe.prog.len < 2 ^ 64) : s.PcInv := by
  refine ⟨h4, fun pe hpe => ?_⟩
  obtain ⟨hbase, hal⟩ := pc_of_peLaunch (State.launch_pe h hpe)
  exact ⟨hbase ▸ hal, htop pe hpe, 0, Nat.zero_le _, by rw [hbase, Nat.mul_zero, Nat.add_zero]⟩

/-- Settles O54: the invariant of O53 holds at launch. -/
theorem launchedRunsKeepProgramCountersInPlace :
    Obligations.LaunchedRunsKeepProgramCountersInPlace :=
  fun k _ _ hlaunch h4 htop =>
    run_keeps everyStepKeepsProgramCountersInPlace k (State.launch_pcInv hlaunch h4 htop)

/-! ### Executions under the launch premises P2, P4 and P6 (R142) -/

section Premises

variable {cfg : Config} {pe : Pe}

theorem securityStateAtEL1_eq_none_iff :
    securityStateAtEL1 cfg pe = none ↔
      cfg.featRME = true ∧ cfg.haveEL3 = true ∧ pe.scrNSE = true ∧ pe.scrNS = false := by
  cases h3 : cfg.haveEL3 with
  | false => simp [securityStateAtEL1_of_noEL3 h3]
  | true =>
    cases hr : cfg.featRME with
    | false => simp [securityStateAtEL1_of_noRME h3 hr]
    | true => cases hnse : pe.scrNSE <;> cases hns : pe.scrNS <;>
        simp [securityStateAtEL1, h3, hr, hnse, hns]

/-- P6 asks for a Security state where the invalidation path is taken. -/
theorem nseNsLegalFor_iff {i : Instr} :
    nseNsLegalFor cfg pe i = true ↔
      (takesInvalidation cfg pe i = true → securityStateAtEL1 cfg pe ≠ none) := by
  rw [ne_eq, securityStateAtEL1_eq_none_iff, nseNsLegalFor]
  cases takesInvalidation cfg pe i with
  | false => simp
  | true => simp [or_iff_not_imp_left]

theorem invalidating_of_takesInvalidation {i : Instr} (h : takesInvalidation cfg pe i = true) :
    invalidating cfg pe = true := by
  simp only [takesInvalidation, Bool.and_eq_true] at h
  obtain ⟨⟨hpath, -⟩, -⟩ := h
  exact hpath

/-- Under P2, EL2 is enabled on the invalidation path. -/
theorem el2Enabled_of_invalidating (hP2 : el2EnabledAtEl2 cfg pe = true)
    (h : invalidating cfg pe = true) : el2Enabled cfg pe = true := by
  simp only [invalidating, Bool.and_eq_true, Bool.or_eq_true, beq_iff_eq] at h
  rcases h with ⟨-, hel | ⟨-, h2⟩⟩
  · simpa [el2EnabledAtEl2, hel] using hP2
  · exact h2

/-- Under P4, every Security state of EL1 with EL2 enabled has an IPA space. -/
theorem exists_ipaSpaceOf {ss : SecurityState} (hP4 : secureEl2NeedsSel2 cfg pe = true)
    (h2 : el2Enabled cfg pe = true) (hss : securityStateAtEL1 cfg pe = some ss) (ns : Bool) :
    ∃ space nsRes0, ipaSpaceOf cfg ss ns = some (space, nsRes0) := by
  cases ss with
  | secure =>
    have hsel2 : cfg.featSEL2 = true := by simpa [secureEl2NeedsSel2, h2, hss] using hP4
    exact ⟨_, _, ipaSpaceOf_secure_of_meaning (.inr hsel2) ns⟩
  | nonSecure => exact ⟨_, _, rfl⟩
  | realm => exact ⟨_, _, rfl⟩

end Premises

/-- The Exception level's tests answer a next state where none of them leads to the invalidation. -/
theorem byExceptionLevel_next_of_not_invalidating {s : State} {pe : Pe} {a : Attr} {t t2 : Nat}
    (h : invalidating s.cfg pe = false) (hd : s.cfg.featD128 = true) :
    ∃ s', byExceptionLevel a t t2 pe s = .next s' := by
  obtain ⟨h2, h3⟩ := invalidating_eq_false h hd
  cases hel : pe.el with
  | el0 => exact ⟨_, byExceptionLevel_of_el0 hel⟩
  | el1 =>
    by_cases hno : el2Enabled s.cfg pe = false ∨ hcrNV s.cfg pe = false
    · exact ⟨_, byExceptionLevel_of_el1_noNv hel hno⟩
    · simp only [not_or, Bool.not_eq_false] at hno
      obtain ⟨h2, hnv⟩ := hno
      exact ⟨_, byExceptionLevel_of_el1_nv hel h2 hnv⟩
  | el2 => exact absurd hel h2
  | el3 => exact ⟨_, byExceptionLevel_of_el3_noEl2 hel (h3 hel)⟩

/-- Off the invalidation path, an execution answers a next state. -/
theorem exec_next_of_not_takesInvalidation {i : Instr} {s : State} {pe : Pe}
    (hpe : s.pes[s.cur]? = some pe) (h : takesInvalidation s.cfg pe i = false) :
    ∃ s', exec i s = .next s' := by
  cases ht : pairOf s.cfg i.rt with
  | none => exact ⟨_, exec_of_noPair hpe ht⟩
  | some t2 =>
    cases hd : s.cfg.featD128 with
    | false => exact ⟨_, exec_of_noD128 hpe ht hd⟩
    | true =>
      cases i with
      | tlbipIpas2le1os t =>
        have hpath : invalidating s.cfg pe = false := by simpa [takesInvalidation, ht] using h
        rw [exec_base_eq_byExceptionLevel (t := t) hpe ht hd]
        exact byExceptionLevel_next_of_not_invalidating hpath hd
      | tlbipIpas2le1osnxs t =>
        cases hx : s.cfg.featXS with
        | false => exact ⟨_, exec_nxs_of_noXS hpe ht hd hx⟩
        | true =>
          have hpath : invalidating s.cfg pe = false := by simpa [takesInvalidation, ht, hx] using h
          rw [exec_nxs_eq_byExceptionLevel (t := t) hpe ht hd hx]
          exact byExceptionLevel_next_of_not_invalidating hpath hd

/-- Settles O16: P6 gives the invalidation its Security state, P2 and P4 its IPA space, and the res0 test is left. -/
theorem launchPremisesLeaveOnlyTheRes0Refusal : Obligations.LaunchPremisesLeaveOnlyTheRes0Refusal := by
  intro s pe i hpe hP4 hP6 hP2
  cases htakes : takesInvalidation s.cfg pe i with
  | false => exact .inl (exec_next_of_not_takesInvalidation hpe htakes)
  | true =>
    obtain ⟨t2, ht, hexec⟩ := exec_of_takesInvalidation hpe htakes
    have hpath := invalidating_of_takesInvalidation htakes
    obtain ⟨ss, hss⟩ := Option.ne_none_iff_exists'.1 (nseNsLegalFor_iff.1 hP6 htakes)
    obtain ⟨space, nsRes0, hsp⟩ := exists_ipaSpaceOf hP4 (el2Enabled_of_invalidating hP2 hpath) hss
      (nsBit (operandOf pe i.rt t2))
    rw [hexec]
    cases hset : res0BitSet s.cfg nsRes0 (operandOf pe i.rt t2) with
    | false => exact .inl ⟨_, invalidate_next hss hsp (.inl hset)⟩
    | true =>
      cases hpol : s.cfg.res0Policy with
      | ignore => exact .inl ⟨_, invalidate_next hss hsp (.inr hpol)⟩
      | refuse =>
        exact .inr ⟨invalidate_eq_res0Set hss hsp hset hpol, rfl, hpath, t2, ss, space, nsRes0, ht,
          hss, hsp, hset⟩

/-! ### Where a step's refusal comes from -/

theorem runCurrent_eq_refused {s : State} {r : Refusal} (h : runCurrent s = .refused r) :
    r = .noSuchPe ∨ ∃ pe, s.pes[s.cur]? = some pe ∧
      (fetch s.cfg pe = .refused r ∨ ∃ i, fetch s.cfg pe = .next i ∧ exec i s = .refused r) := by
  cases hpe : s.pes[s.cur]? with
  | none =>
    simp only [runCurrent, withCur, hpe, Host.Outcome.refused.injEq] at h
    exact .inl h.symm
  | some pe =>
    cases hex : pe.exception with
    | some e => rw [runCurrent_of_exception hpe hex] at h; cases h
    | none =>
      rw [runCurrent_of hpe hex] at h
      refine .inr ⟨pe, rfl, ?_⟩
      cases hf : fetch s.cfg pe with
      | next i =>
        rw [hf, andThen_next] at h
        exact .inr ⟨i, rfl, h⟩
      | fault f =>
        rw [hf] at h
        cases h
      | refused r' =>
        rw [hf] at h
        obtain rfl := Host.Outcome.refused.inj h
        exact .inl rfl

/-- The names that moves other than `run` are refused by. -/
def Refusal.OfMove (r : Refusal) : Prop := r = .noSuchPe ∨ r = .eventNotEnabled

theorem perform_eq_refused {id q : Nat} {s : State} {r : Refusal}
    (h : perform id q s = .refused r) : r.OfMove := by
  unfold perform at h
  split at h
  · cases h; exact .inr rfl
  · split at h <;> cases h
    exact .inr rfl

theorem completeOp_eq_refused {id : Nat} {s : State} {r : Refusal}
    (h : completeOp id s = .refused r) : r.OfMove := by
  unfold completeOp at h
  split at h
  · cases h; exact .inr rfl
  · split at h <;> cases h
    exact .inr rfl

theorem atPe_eq_refused {q : Nat} {s : State} {f : Pe → Pe} {r : Refusal}
    (h : atPe q s f = .refused r) : r.OfMove := by
  unfold atPe at h
  split at h <;> cases h
  exact .inl rfl

theorem gainEntry_eq_refused {q : Nat} {e : TlbEntry} {s : State} {r : Refusal}
    (h : gainEntry q e s = .refused r) : r.OfMove := by
  unfold gainEntry at h
  split at h
  · exact atPe_eq_refused h
  · cases h; exact .inr rfl

theorem onAccess_eq_refused {q k : Nat} {ok : Access → Bool} {f : Pe → Pe} {s : State} {r : Refusal}
    (h : onAccess q k ok f s = .refused r) : r.OfMove := by
  unfold onAccess at h
  split at h
  · cases h; exact .inl rfl
  · split at h
    · cases h; exact .inr rfl
    · split at h <;> cases h
      exact .inr rfl

/-- A move is refused by a name of its own, or it runs a PE whose step is refused. -/
theorem handleEvent_eq_refused {ev : Event} {s : State} {r : Refusal}
    (h : handleEvent ev s = .refused r) :
    r.OfMove ∨ ∃ p, ev = .run p ∧ runCurrent { s with cur := p } = .refused r := by
  cases ev with
  | run p => exact .inr ⟨p, rfl, h⟩
  | perform id q => exact .inl (perform_eq_refused h)
  | complete id => exact .inl (completeOp_eq_refused h)
  | gain q e => exact .inl (gainEntry_eq_refused h)
  | lose q e => exact .inl (atPe_eq_refused h)
  | accessBegin q used xs => exact .inl (atPe_eq_refused h)
  | accessUses q k e => exact .inl (onAccess_eq_refused h)
  | accessComplete q k => exact .inl (onAccess_eq_refused h)
  | accessRetire q k => exact .inl (onAccess_eq_refused h)

/-- A step is refused by a name of its move, or at the PE that it runs. -/
theorem step_eq_refused {s : State} {r : Refusal} (h : step s = .refused r) :
    r.OfMove ∨ ∃ s₁, s₁.cfg = s.cfg ∧ s₁.pes = s.pes ∧ runCurrent s₁ = .refused r := by
  cases hag : s.agenda with
  | nil =>
    rw [step_of_agenda_nil hag] at h
    exact .inr ⟨s, rfl, rfl, h⟩
  | cons ev rest =>
    rw [step_of_agenda hag] at h
    rcases handleEvent_eq_refused h with hmove | ⟨p, -, hrun⟩
    · exact .inl hmove
    · exact .inr ⟨{ s with cur := p, agenda := rest }, rfl, rfl, hrun⟩

/-! ### The launch premises P2, P4 and P6 along a run (R142, log 36) -/

/-- P6 asks of the instruction that the PE fetches. -/
theorem nseNsLegal_iff {cfg : Config} {pe : Pe} :
    nseNsLegal cfg pe = true ↔ ∀ i, fetch cfg pe = .next i → nseNsLegalFor cfg pe i = true := by
  unfold nseNsLegal
  cases fetch cfg pe <;> simp

/-- The premises P2, P4 and P6 of a PE, wherever its program counter is. -/
structure Pe.Meaningful (cfg : Config) (pe : Pe) : Prop where
  el2 : el2EnabledAtEl2 cfg pe = true
  sel2 : secureEl2NeedsSel2 cfg pe = true
  legal : nseNsLegal cfg pe = true

/-- Every PE meets P2, P4 and P6. -/
def State.Meaningful (s : State) : Prop := ∀ pe ∈ s.pes, pe.Meaningful s.cfg

theorem Pe.Meaningful.of_peLaunch {cfg : Config} {pe : Pe} (h : peLaunch cfg pe = true) :
    pe.Meaningful cfg := by
  simp only [peLaunch, Bool.and_eq_true, and_assoc] at h
  obtain ⟨-, hP2, -, hP4, -, hP6, -⟩ := h
  exact ⟨hP2, hP4, hP6⟩

/-- A step keeps P2, P4 and P6 of a PE: the control fields stay, and where the program counter moves, the PE has a Security state or never invalidates. -/
theorem step_keeps_peMeaningful {s s' : State} {q : Nat} {pe pe' : Pe} (h : step s = .next s')
    (hpe : s.pes[q]? = some pe) (hpe' : s'.pes[q]? = some pe') (hm : pe.Meaningful s.cfg) :
    pe'.Meaningful s.cfg := by
  have hpc := step_pc h hpe hpe'
  rw [step_pe_eq_with h hpe hpe']
  refine ⟨hm.el2, hm.sel2, ?_⟩
  rcases hpc with hpc | ⟨-, -, hss⟩
  · rw [hpc]
    exact hm.legal
  · exact nseNsLegal_iff.2 fun i _ => nseNsLegalFor_iff.2 fun ht =>
      hss (invalidating_of_takesInvalidation ht)

theorem step_keeps_meaningful (s s' : State) (hm : s.Meaningful) (h : step s = .next s') :
    s'.Meaningful :=
  step_keeps_forall_pes (P := fun cfg pe => pe.Meaningful cfg)
    (fun _ _ _ hpe hpe' => step_keeps_peMeaningful h hpe hpe') h hm

/-- Where every PE meets P2, P4 and P6, no step lacks a Security state or an IPA space. -/
theorem State.Meaningful.step_ne {s : State} (hm : s.Meaningful) :
    step s ≠ .refused .securityStateReserved ∧ step s ≠ .refused .noIpaSpace := by
  suffices h : ∀ r, step s = .refused r → r ≠ .securityStateReserved ∧ r ≠ .noIpaSpace from
    ⟨fun hs => (h _ hs).1 rfl, fun hs => (h _ hs).2 rfl⟩
  intro r hs
  rcases step_eq_refused hs with (rfl | rfl) | ⟨s₁, hcfg, hpes, hrun⟩
  · decide
  · decide
  rcases runCurrent_eq_refused hrun with rfl | ⟨pe, hpe, hf | ⟨i, hf, he⟩⟩
  · decide
  · rcases fetch_eq_refused hf with rfl | rfl | rfl | rfl | rfl <;> decide
  · obtain ⟨hP2, hP4, hP6⟩ := hcfg ▸ hm pe (hpes ▸ List.mem_of_getElem? hpe)
    rcases launchPremisesLeaveOnlyTheRes0Refusal s₁ pe i hpe hP4 (nseNsLegal_iff.1 hP6 i hf) hP2 with
      ⟨s', hnext⟩ | ⟨hres0, -⟩
    · rw [hnext] at he; cases he
    · obtain rfl := Host.Outcome.refused.inj (he.symm.trans hres0)
      decide

/-- Settles O55: launch states meet P2, P4 and P6, and every step keeps them. -/
theorem launchedRunsNeverLackASecurityStateOrIpaSpace :
    Obligations.LaunchedRunsNeverLackASecurityStateOrIpaSpace := by
  intro k s s' hlaunch hrun
  have hm : s.Meaningful := fun pe hpe => .of_peLaunch (State.launch_pe hlaunch hpe)
  exact (run_keeps step_keeps_meaningful k hm hrun).step_ne

end Sys2Proof.Machine
